-- ==== Sys2Proof/Word.lean ====
section
/-! DEFINITION. The one word of the machine: a byte (00_scope.md R4, R5: registers, memory cells, opcodes and operands
are unsigned 8-bit values; nothing is signed). -/

namespace Sys2Proof

/-- An unsigned 8-bit value: a register, a memory cell, an opcode, an operand byte. -/
abbrev Byte := BitVec 8

end Sys2Proof
end

