-- ==== Sys2Proof/Config.lean ====
section
/-! DEFINITION. The parameters of 00_scope.md R4 that an implementation fixes. The opcode byte values are parameters
too (30_encoding.md R68); they stand in Decode.lean, beside the decoder and the encoder that read them. The spec leaves
no value open, so there is no free value here (92_eei_decisions.md: "None is left OPEN"). -/

namespace Sys2Proof.Config

/-- `MEM_SIZE`: 256 cells, addresses 0 to 255 (R4, R28). -/
@[simp] abbrev memSize : Nat := 256

/-- `NREG`: eight general registers (R4, R10). -/
@[simp] abbrev numRegs : Nat := 8

/-- `RESET_PC` (R15, R180): stated by the spec's source. -/
@[simp] abbrev resetPc : Nat := 0

/-- `LOAD_BASE`: the address of the first program byte (R4, R184). -/
@[simp] abbrev loadBase : Nat := 0

/-- The largest program image, in bytes (R184, D13; log 12). -/
@[simp] abbrev maxImage : Nat := 256

/-- `RESET_REG[0..6]`. DESIGN CHOICE of the spec (R14, D8; log 2). Unsafe for a program that reads before it writes. -/
abbrev resetReg : Byte := 0x00#8

/-- `STACK_BASE`, the reset value of R7. DESIGN CHOICE of the spec (R14, D8; log 2). Unsafe as above. -/
abbrev stackBase : Byte := 0xF4#8

/-- `RESET_FL`. DESIGN CHOICE of the spec (R23, D8; log 2). Unsafe as above. -/
abbrev resetFl : Byte := 0x00#8

/-- The reset value of IR (R24, D24; log 2): read by no instruction. -/
abbrev resetIr : Byte := 0x00#8

/-- `RESET_MEM_FILL`, what a cell that nothing has written reads as. DESIGN CHOICE of the spec (R28, D8; log 2). -/
@[simp] abbrev memFill : Byte := 0x00#8

/-- What the decoder is handed in place of an operand byte whose address is above 255. DESIGN CHOICE (log 15), safe: no
instruction uses it, since the read of that operand raises first or is never made. -/
abbrev absentOperand : Byte := 0x00#8

end Sys2Proof.Config
end

