-- ==== Sys2Proof/Machine/State.lean ====
section
/-! DEFINITION. The whole state of the LS-8 core (10_state.md), as plain data, the reasons a step can stop, and the
state right after reset (70_reset_and_hazards.md R180). -/

namespace Sys2Proof.Machine

/-- The fatal errors the core can raise, each with its one info value (60_exceptions.md R150). They are not reasons for
the model to stop: raising one is a next state whose run state is FAULTED (R159; log 8). -/
inductive FatalError where
  /-- An address outside 0 to 255: -1, or 256 and above (R151). -/
  | memoryOutOfBounds (addr : Int)
  /-- An opcode with bit 5 set that is not ADD, MUL or CMP (R152). -/
  | unsupportedALUOperation (op : Byte)
  /-- An opcode with bit 5 clear, not HLT, with no dispatch-table entry (R153). -/
  | unknownOpcode (op : Byte)
  /-- A register index above 7, at the access (R154, D7; log 7). -/
  | registerIndexOutOfRange (index : Nat)
  deriving DecidableEq, Repr

/-- The run state (10_state.md R26): HALTED and FAULTED are terminal and distinct (60_exceptions.md R160). -/
inductive RunState where
  | running
  | halted
  | faulted (e : FatalError)
  deriving DecidableEq, Repr

/-- The 256 cells (10_state.md R28) as address and byte pairs in one canonical form, `Memory.wf`: a cell that is not
listed reads as `Config.memFill`. -/
abbrev Memory := List Host.Cell

/-- The whole state of the machine (10_state.md R10 to R31). -/
structure State where
  /-- Memory: code, data and stack in one space (R28). -/
  mem : Memory
  /-- The register file R0 to R7; R7 is the stack pointer by convention (R10, R13). -/
  regs : Vector Byte 8
  /-- The program counter, a natural number that is never reduced modulo 256 (R15, D5; log 4). -/
  pc : Nat
  /-- The opcode byte most recently fetched (R24). -/
  ir : Byte
  /-- The flags register: bit 0 E, bit 1 G, bit 2 L (R20). -/
  fl : Byte
  /-- The run state (R26). -/
  run : RunState
  /-- The output channel's history, oldest first (R30; log 11). -/
  output : List Byte
  deriving DecidableEq, Repr

/-- Why a step stops. -/
inductive Fault where
  /-- Raised by `step` on a HALTED machine: "no step is defined from them" (10_state.md R26, 40_execution_cycle.md R80).
  Safe: the machine has stopped and the model says so. -/
  | halted
  /-- Raised by `step` on a machine that a fatal error has stopped, with the recorded error (R26, R160). Safe, as above. -/
  | faulted (e : FatalError)
  deriving DecidableEq, Repr

/-- What the model gives no meaning. -/
inductive Refusal where
  /-- An instruction that the model has no meaning for, by its name in the opcode table. No arm answers it: every
  instruction has its meaning. Safe. -/
  | notModelled (mnemonic : String)
  /-- Raised by `loadImage` for an image of more than 256 bytes: "refused by the load and the core does not start"
  (70_reset_and_hazards.md R184, D13; log 12). Safe. -/
  | imageTooLong (length : Nat)
  deriving DecidableEq, Repr

/-- The machine right after reset with the empty image, before any program is loaded (70_reset_and_hazards.md R180,
R183, R188). PC and the run state are the source's; the other values are the spec's decisions D8 and D24 (log 2). -/
def State.reset : State where
  mem := []
  regs := #v[Config.resetReg, Config.resetReg, Config.resetReg, Config.resetReg,
             Config.resetReg, Config.resetReg, Config.resetReg, Config.stackBase]
  pc := Config.resetPc
  ir := Config.resetIr
  fl := Config.resetFl
  run := .running
  output := []

end Sys2Proof.Machine
end

