-- ==== Sys2Proof/Machine/Flags.lean ====
section
/-! DEFINITION. The flags register's three bits and the one computation that writes them (10_state.md R20 to R23,
41_alu.md R104). ADD and MUL have no carry, overflow, zero or sign output (R100). -/

namespace Sys2Proof.Machine

/-- E, equal: bit 0. -/
def flagE (fl : Byte) : Bool := fl[0]

/-- G, greater-than: bit 1. Written by CMP, read by no instruction (R22). -/
def flagG (fl : Byte) : Bool := fl[1]

/-- L, less-than: bit 2. Written by CMP, read by no instruction (R22). -/
def flagL (fl : Byte) : Bool := fl[2]

/-- The whole of FL after comparing `va` to `vb` as unsigned integers: exactly one bit is set (41_alu.md R104). -/
def compareFlags (va vb : Byte) : Byte :=
  if va.toNat < vb.toNat then 0b00000100#8
  else if va.toNat > vb.toNat then 0b00000010#8
  else 0b00000001#8

end Sys2Proof.Machine
end

