-- ==== Sys2Proof/Syntax.lean ====
section
/-! DEFINITION. The instructions: one constructor for each row of spec/opcode_table.json (00_scope.md R1), with the
operand bytes of 30_encoding.md R62; and the names of the two tables that select them (41_alu.md R100, 30_encoding.md
R70). -/

namespace Sys2Proof

/-- An instruction. A register operand is its WHOLE byte, 0 to 255 (30_encoding.md R65): a byte above 7 is still an
instruction, which raises RegisterIndexOutOfRange when, and only when, it accesses the register. -/
inductive Instr where
  /-- HLT (40_execution_cycle.md R88). -/
  | hlt
  /-- RET (44_control_transfer.md R132). -/
  | ret
  /-- PUSH Rs (43_stack.md R121). -/
  | push (rs : Byte)
  /-- POP Rd (43_stack.md R122). -/
  | pop (rd : Byte)
  /-- PRN Rs (42_load_and_output.md R112). -/
  | prn (rs : Byte)
  /-- CALL Rt (44_control_transfer.md R131). -/
  | call (rt : Byte)
  /-- JMP Rt (44_control_transfer.md R133). -/
  | jmp (rt : Byte)
  /-- JEQ Rt (44_control_transfer.md R134). -/
  | jeq (rt : Byte)
  /-- JNE Rt (44_control_transfer.md R136). -/
  | jne (rt : Byte)
  /-- LDI Rd,imm (42_load_and_output.md R111). -/
  | ldi (rd imm : Byte)
  /-- ADD Ra,Rb (41_alu.md R102). -/
  | add (ra rb : Byte)
  /-- MUL Ra,Rb (41_alu.md R103). -/
  | mul (ra rb : Byte)
  /-- CMP Ra,Rb (41_alu.md R104). -/
  | cmp (ra rb : Byte)
  deriving DecidableEq, Repr

/-- The operations the ALU supports (41_alu.md R100; CMP is one of them, 90_conflicts.md C3). -/
inductive AluOp where
  | add
  | mul
  | cmp
  deriving DecidableEq, Repr

/-- The handlers of the dispatch table (30_encoding.md R70). -/
inductive Handler where
  | ldi
  | prn
  | push
  | pop
  | call
  | ret
  | jmp
  | jeq
  | jne
  deriving DecidableEq, Repr

/-- An opcode byte that stands for no instruction (30_encoding.md R71, R72). -/
inductive IllegalOpcode where
  /-- Bit 5 is set and the ALU does not support the operation (R71). -/
  | unsupportedALU (op : Byte)
  /-- Bit 5 is clear, it is not HLT, and the dispatch table has no entry (R72). -/
  | unknownOpcode (op : Byte)
  deriving DecidableEq, Repr

/-- Why a list of bytes does not begin with an instruction. -/
inductive DecodeError where
  /-- The list is empty. -/
  | noBytes
  /-- The opcode byte is illegal. -/
  | illegal (e : IllegalOpcode)
  /-- The list ends before the operand bytes of this opcode. -/
  | missingOperand (op : Byte)
  deriving DecidableEq, Repr

end Sys2Proof
end

