-- ==== Sys2Proof/WellFormed.lean ====
section
/-! DEFINITION. Well-formed instructions: every register operand names one of R0 to R7 (30_encoding.md R65; the
"0-7 legal" of spec/opcode_table.json). The immediate of LDI may be any byte (R66). An ill-formed instruction still
decodes and runs, with the error the spec gives it (log 16). -/

namespace Sys2Proof

/-- The operand byte names a register (10_state.md R12: only 0 to 7 do). -/
def namesRegister (b : Byte) : Bool := decide (b.toNat < Config.numRegs)

/-- Every register operand of the instruction names a register. -/
def Instr.wellFormed : Instr → Bool
  | .hlt => true
  | .ret => true
  | .push rs => namesRegister rs
  | .pop rd => namesRegister rd
  | .prn rs => namesRegister rs
  | .call rt => namesRegister rt
  | .jmp rt => namesRegister rt
  | .jeq rt => namesRegister rt
  | .jne rt => namesRegister rt
  | .ldi rd _ => namesRegister rd
  | .add ra rb => namesRegister ra && namesRegister rb
  | .mul ra rb => namesRegister ra && namesRegister rb
  | .cmp ra rb => namesRegister ra && namesRegister rb

/-- The proposition that an instruction is well-formed. -/
abbrev Instr.WellFormed (i : Instr) : Prop := i.wellFormed = true

end Sys2Proof
end

