-- ==== Sys2Proof/Decode.lean ====
section
/-! DEFINITION. The opcode bytes, the decoder (total, rejecting by name) and the encoder (30_encoding.md). -/

namespace Sys2Proof

/-! The thirteen opcode byte values, 30_encoding.md R68. PRESUMED: the spec takes bits 3:0, and all of HLT's, from
general knowledge of the LS-8 (decision D1; log 1). Unsafe: with other values a byte decodes as another instruction. -/

/-- `OP_HLT` = 0b00000001. -/
def opHLT : Byte := 0x01#8
/-- `OP_RET` = 0b00010001. -/
def opRET : Byte := 0x11#8
/-- `OP_PUSH` = 0b01000101. -/
def opPUSH : Byte := 0x45#8
/-- `OP_POP` = 0b01000110. -/
def opPOP : Byte := 0x46#8
/-- `OP_PRN` = 0b01000111. -/
def opPRN : Byte := 0x47#8
/-- `OP_CALL` = 0b01010000. -/
def opCALL : Byte := 0x50#8
/-- `OP_JMP` = 0b01010100. -/
def opJMP : Byte := 0x54#8
/-- `OP_JEQ` = 0b01010101. -/
def opJEQ : Byte := 0x55#8
/-- `OP_JNE` = 0b01010110. -/
def opJNE : Byte := 0x56#8
/-- `OP_LDI` = 0b10000010. -/
def opLDI : Byte := 0x82#8
/-- `OP_ADD` = 0b10100000. -/
def opADD : Byte := 0xA0#8
/-- `OP_MUL` = 0b10100010. -/
def opMUL : Byte := 0xA2#8
/-- `OP_CMP` = 0b10100111. -/
def opCMP : Byte := 0xA7#8

/-! The three structural fields of an opcode byte, R61. Every byte has them (R83). -/

/-- `operand_count`, bits 7:6, extracted as it stands: 3 occurs in illegal opcodes only (R64). -/
def operandCount (op : Byte) : Nat := (op.extractLsb' 6 2).toNat

/-- `is_alu`, bit 5. -/
def isAlu (op : Byte) : Bool := op[5]

/-- `sets_pc`, bit 4. -/
def setsPc (op : Byte) : Bool := op[4]

/-- The ALU's test of the whole opcode byte (41_alu.md R100). -/
def aluSelect (op : Byte) : Option AluOp :=
  if op = opADD then some .add
  else if op = opMUL then some .mul
  else if op = opCMP then some .cmp
  else none

/-- The dispatch table: nine opcode bytes and their handlers, fixed (10_state.md R29, 30_encoding.md R70). -/
def dispatchTable : List (Byte × Handler) :=
  [ (opLDI, .ldi), (opPRN, .prn), (opPUSH, .push), (opPOP, .pop), (opCALL, .call),
    (opRET, .ret), (opJMP, .jmp), (opJEQ, .jeq), (opJNE, .jne) ]

/-- The lookup by the whole byte (40_execution_cycle.md R85). -/
def dispatchLookup (op : Byte) : Option Handler := dispatchTable.lookup op

/-- The instruction of an ALU operation and its two operand bytes (30_encoding.md R62, format RR). -/
def AluOp.instr : AluOp → Byte → Byte → Instr
  | .add, a, b => .add a b
  | .mul, a, b => .mul a b
  | .cmp, a, b => .cmp a b

/-- The instruction of a handler and the two bytes after its opcode; a handler takes those its format has (R62). -/
def Handler.instr : Handler → Byte → Byte → Instr
  | .ldi, d, imm => .ldi d imm
  | .prn, s, _ => .prn s
  | .push, s, _ => .push s
  | .pop, d, _ => .pop d
  | .call, t, _ => .call t
  | .ret, _, _ => .ret
  | .jmp, t, _ => .jmp t
  | .jeq, t, _ => .jeq t
  | .jne, t, _ => .jne t

/-- THE DECODER: the instruction of an opcode byte and the two bytes after it, or the name of what is wrong with the
opcode. The order is that of 40_execution_cycle.md R80: the halt test, then the ALU, then the dispatch table. -/
def decode (op b1 b2 : Byte) : Except IllegalOpcode Instr :=
  if op = opHLT then .ok .hlt
  else if isAlu op then
    match aluSelect op with
    | some f => .ok (f.instr b1 b2)
    | none => .error (.unsupportedALU op)
  else
    match dispatchLookup op with
    | some h => .ok (h.instr b1 b2)
    | none => .error (.unknownOpcode op)

/-- The opcode byte of an instruction (R68). -/
def opcodeOf : Instr → Byte
  | .hlt => opHLT
  | .ret => opRET
  | .push _ => opPUSH
  | .pop _ => opPOP
  | .prn _ => opPRN
  | .call _ => opCALL
  | .jmp _ => opJMP
  | .jeq _ => opJEQ
  | .jne _ => opJNE
  | .ldi _ _ => opLDI
  | .add _ _ => opADD
  | .mul _ _ => opMUL
  | .cmp _ _ => opCMP

/-- The operand bytes of an instruction, in ascending addresses (R62, 20_memory.md R43). -/
def operandsOf : Instr → List Byte
  | .hlt => []
  | .ret => []
  | .push rs => [rs]
  | .pop rd => [rd]
  | .prn rs => [rs]
  | .call rt => [rt]
  | .jmp rt => [rt]
  | .jeq rt => [rt]
  | .jne rt => [rt]
  | .ldi rd imm => [rd, imm]
  | .add ra rb => [ra, rb]
  | .mul ra rb => [ra, rb]
  | .cmp ra rb => [ra, rb]

/-- THE ENCODER: the bytes of an instruction, the first at the lowest address (R60, R62). -/
def encode (i : Instr) : List Byte := opcodeOf i :: operandsOf i

/-- The decoder on a list of bytes: the first instruction and the bytes after it. -/
def decodeList : List Byte → Except DecodeError (Instr × List Byte)
  | [] => .error .noBytes
  | op :: rest =>
    match decode op (rest.getD 0 Config.absentOperand) (rest.getD 1 Config.absentOperand) with
    | .error e => .error (.illegal e)
    | .ok i =>
      if (operandsOf i).length ≤ rest.length then .ok (i, rest.drop (operandsOf i).length)
      else .error (.missingOperand op)

/-- Byte k of a number whose byte 0 is its least significant. -/
def tableByte (w k : Nat) : Byte := BitVec.ofNat 8 (w / 256 ^ k)

/-- The number w cut to nbits: every bit above is 0. -/
def tableWord (nbits w : Nat) : Nat := w % 2 ^ nbits

/-- The three bytes that a word of spec/opcode_table.json stands for, the first at the lowest address: bit 0 is the
least significant bit of the opcode byte, and the second byte is bits 15 to 8. -/
def tableBytes (nbits w : Nat) : List Byte :=
  [ tableByte (tableWord nbits w) 0, tableByte (tableWord nbits w) 1, tableByte (tableWord nbits w) 2 ]

/-- The instruction the decoder reads from a word numbered as spec/opcode_table.json numbers it. -/
def decodeTableWord (nbits w : Nat) : Option Instr :=
  match decodeList (tableBytes nbits w) with
  | .ok (i, _) => some i
  | .error _ => none

end Sys2Proof
end

