-- ==== Sys2Proof/Machine/Ops.lean ====
section
/-! DEFINITION. The operations that instructions share: one home for memory, for the registers, for PC, for the output
channel, for the stack pointer, and for raising a fatal error (00_scope.md R6; 10_state.md R32). An operation that can
raise answers an `Except FatalError`; what it would write is kept only if the whole instruction goes through (R7). -/

namespace Sys2Proof.Machine

/-! ## Field updates -/

/-- Replace the memory. -/
def State.setMem (s : State) (m : Memory) : State := { s with mem := m }
/-- Replace the register file. -/
def State.setRegs (s : State) (r : Vector Byte 8) : State := { s with regs := r }
/-- `pc <- t`, the program counter's `load` (10_state.md R18, R32). -/
def State.setPc (s : State) (t : Nat) : State := { s with pc := t }
/-- The fetch's write of IR (10_state.md R24). -/
def State.setIr (s : State) (op : Byte) : State := { s with ir := op }
/-- CMP's write of the whole of FL (10_state.md R21). -/
def State.setFl (s : State) (f : Byte) : State := { s with fl := f }
/-- A transition of the run state (10_state.md R26). -/
def State.setRun (s : State) (r : RunState) : State := { s with run := r }
/-- `Output(v)`: append one value to the output channel; it never blocks and never fails (10_state.md R30). -/
def State.emit (s : State) (v : Byte) : State := { s with output := s.output ++ [v] }

/-! ## Memory -/

/-- The byte of a cell; a cell that is not listed holds `Config.memFill`. -/
def Memory.read : Memory → Nat → Byte
  | [], _ => Config.memFill
  | (b, w) :: m, a => if a = b then w else Memory.read m a

/-- Set one cell, keeping the addresses rising and leaving out a cell that holds `Config.memFill`. -/
def Memory.write : Memory → Nat → Byte → Memory
  | [], a, v => if v = Config.memFill then [] else [(a, v)]
  | (b, w) :: m, a, v =>
    if a < b then (if v = Config.memFill then (b, w) :: m else (a, v) :: (b, w) :: m)
    else if a = b then (if v = Config.memFill then m else (a, v) :: m)
    else (b, w) :: Memory.write m a v

/-- The listed addresses rise strictly from at least `lo`, all below 256, and no listed byte is `Config.memFill`. -/
def Memory.risingFrom : Nat → Memory → Bool
  | _, [] => true
  | lo, (a, v) :: m =>
    decide (lo ≤ a) && decide (a < Config.memSize) && decide (v ≠ Config.memFill) && Memory.risingFrom (a + 1) m

/-- The canonical form of memory. -/
def Memory.wf (m : Memory) : Bool := Memory.risingFrom 0 m

/-- Write bytes at ascending addresses; a byte that would fall above 255 has no cell and is dropped. The Loader's and
`withFetchWord`'s store, never an instruction's. -/
def storeBytes : Nat → List Byte → Memory → Memory
  | _, [], m => m
  | a, v :: vs, m => storeBytes (a + 1) vs (if a < Config.memSize then m.write a v else m)

/-- `MemRead(a)` (20_memory.md R40): above 255 it raises, never wraps (D3; log 4). -/
def memRead (a : Nat) (s : State) : Except FatalError Byte :=
  if a < Config.memSize then .ok (s.mem.read a) else .error (.memoryOutOfBounds a)

/-- `MemWrite(a, v)` (20_memory.md R41): any cell may be written, the program's own too. -/
def memWrite (a : Nat) (v : Byte) (s : State) : Except FatalError State :=
  if a < Config.memSize then .ok (s.setMem (s.mem.write a v)) else .error (.memoryOutOfBounds a)

/-! ## Registers -/

/-- Read `x[i]`; an index above 7 raises and is never masked (10_state.md R12, D7; log 7). -/
def readReg (i : Nat) (s : State) : Except FatalError Byte :=
  if h : i < 8 then .ok s.regs[i] else .error (.registerIndexOutOfRange i)

/-- Write `x[i] <- v`; an index above 7 raises (10_state.md R12, D7; log 7). -/
def writeReg (i : Nat) (v : Byte) (s : State) : Except FatalError State :=
  if h : i < 8 then .ok (s.setRegs (s.regs.set i v h)) else .error (.registerIndexOutOfRange i)

/-- `SP`, shorthand for `x[7]` (00_scope.md R6, 10_state.md R13). -/
def sp (s : State) : Byte := s.regs[7]

/-- Write `x[7]`. -/
def setSp (v : Byte) (s : State) : State := s.setRegs (s.regs.set 7 v)

/-- The low 8 bits of an exact result: reduction modulo 256 (41_alu.md R101, D2; log 3). -/
def lowByte (n : Nat) : Byte := BitVec.ofNat 8 n

/-! ## The stack (43_stack.md R120) -/

/-- The address SP points at: the most recently pushed byte. -/
def stackTop (s : State) : Nat := (sp s).toNat

/-- The decrement before a push: from 0 it raises MemoryOutOfBounds(-1), it never wraps (D4; log 5). -/
def decSp (s : State) : Except FatalError State :=
  if sp s = 0x00#8 then .error (.memoryOutOfBounds (-1)) else .ok (setSp (lowByte ((sp s).toNat - 1)) s)

/-- The increment after a pop: from 255 it raises MemoryOutOfBounds(256), it never wraps (D4; log 5). -/
def incSp (s : State) : Except FatalError State :=
  if sp s = 0xFF#8 then .error (.memoryOutOfBounds 256) else .ok (setSp (lowByte ((sp s).toNat + 1)) s)

/-- The byte CALL pushes: the address of the instruction after it. 256 has no byte and raises (44_control_transfer.md
R131, D6; log 6). -/
def returnAddress (s : State) : Except FatalError Byte :=
  if s.pc + 2 < Config.memSize then .ok (lowByte (s.pc + 2)) else .error (.memoryOutOfBounds (s.pc + 2 : Nat))

/-! ## Advancing PC -/

/-- The default advance by `1 + operand_count`, with the count of the instruction's own opcode byte; the result may
exceed 255 (10_state.md R17, R19; 40_execution_cycle.md R87). -/
def defaultAdvance (op : Byte) (s : State) : State := s.setPc (s.pc + 1 + operandCount op)

/-- The explicit `pc <- pc + 2` of a JEQ or JNE that is not taken (44_control_transfer.md R135). -/
def skipBranch (s : State) : State := s.setPc (s.pc + 2)

/-! ## Raising a fatal error

There is no return from one: no instruction resumes and only a reset leaves FAULTED (60_exceptions.md R162). -/

/-- RAISE: abandon the instruction whole. Every piece of state but the run state stays as it was, IR with the byte the
fetch wrote, and the run state records the error (60_exceptions.md R159; log 8). -/
def raise (e : FatalError) (s : State) : Host.Outcome State Fault Refusal :=
  .next (s.setRun (.faulted e))

/-- End an instruction: keep its effects if nothing was raised, else none of them (00_scope.md R7). -/
def commit (s : State) (body : Except FatalError State) : Host.Outcome State Fault Refusal :=
  match body with
  | .ok t => .next t
  | .error e => raise e s

end Sys2Proof.Machine
end

