-- ==== Sys2Proof/Machine/Operands.lean ====
section
/-! DEFINITION. The operand forms (30_encoding.md R65 to R67): a register index and LDI's immediate, each one byte after
the opcode; there are no others. -/

namespace Sys2Proof.Machine

/-- The instruction's own read of its operand byte k, `MemRead(pc + k)` (42_load_and_output.md R110). A meaning makes
this read where the pseudocode does, for the error it can raise; the byte it reads is the operand that the decoder took
from the same address (log 15). -/
def fetchOperand (k : Nat) (s : State) : Except FatalError Byte := memRead (s.pc + k) s

/-- The value of a register operand: the whole byte is the index (30_encoding.md R65). -/
def regValue (r : Byte) (s : State) : Except FatalError Byte := readReg r.toNat s

/-- Write the register that an operand names. -/
def setRegValue (r : Byte) (v : Byte) (s : State) : Except FatalError State := writeReg r.toNat v s

/-- LDI's immediate: the whole byte, not extended, scaled or shifted (30_encoding.md R66). -/
def immediate (imm : Byte) : Byte := imm

/-- A jump to the address a register operand holds, 0 to 255, not checked in any way (44_control_transfer.md R130,
R133). -/
def jumpTo (r : Byte) (s : State) : Except FatalError State := do
  let t ← regValue r s
  .ok (s.setPc t.toNat)

end Sys2Proof.Machine
end

