-- ==== Sys2Proof/Machine/Alu.lean ====
section
/-! DEFINITION. ADD, MUL, CMP and the unsupported ALU operation (41_alu.md). The core reads both operand bytes before
the ALU is invoked (40_execution_cycle.md R84). -/

namespace Sys2Proof.Machine

/-- The ALU path's two operand reads, in order (40_execution_cycle.md R84). -/
def aluOperands (s : State) : Except FatalError Unit := do
  let _ ← fetchOperand 1 s
  let _ ← fetchOperand 2 s
  .ok ()

/-- ADD Ra,Rb (41_alu.md R102): the exact sum, reduced modulo 256; no flag. -/
def execAdd (ra rb : Byte) (s : State) : Host.Outcome State Fault Refusal :=
  commit s do
    aluOperands s
    let va ← regValue ra s
    let vb ← regValue rb s
    let t ← setRegValue ra (lowByte (va.toNat + vb.toNat)) s
    .ok (defaultAdvance opADD t)

/-- MUL Ra,Rb (41_alu.md R103): the low byte of the exact product; no flag. -/
def execMul (ra rb : Byte) (s : State) : Host.Outcome State Fault Refusal :=
  commit s do
    aluOperands s
    let va ← regValue ra s
    let vb ← regValue rb s
    let t ← setRegValue ra (lowByte (va.toNat * vb.toNat)) s
    .ok (defaultAdvance opMUL t)

/-- CMP Ra,Rb (41_alu.md R104): the whole of FL, by an unsigned comparison; no register. -/
def execCmp (ra rb : Byte) (s : State) : Host.Outcome State Fault Refusal :=
  commit s do
    aluOperands s
    let va ← regValue ra s
    let vb ← regValue rb s
    .ok (defaultAdvance opCMP (s.setFl (compareFlags va vb)))

/-- An ALU-routed opcode that is no instruction (41_alu.md R105): the two operand reads, then the error; no register
index is looked at. -/
def rejectAlu (op : Byte) (s : State) : Host.Outcome State Fault Refusal :=
  commit s do
    aluOperands s
    .error (.unsupportedALUOperation op)

end Sys2Proof.Machine
end

