-- ==== Sys2Proof/Machine/Control.lean ====
section
/-! DEFINITION. HLT (40_execution_cycle.md R88), the unknown opcode (R86), and CALL, RET, JMP, JEQ, JNE
(44_control_transfer.md). -/

namespace Sys2Proof.Machine

/-- HLT (40_execution_cycle.md R88): RUNNING to HALTED; PC is not advanced and nothing else changes. -/
def execHlt (s : State) : Host.Outcome State Fault Refusal :=
  .next (s.setRun .halted)

/-- CALL Rt (44_control_transfer.md R131): the return address goes to the decremented SP, and the target register is
read after the decrement, so CALL R7 jumps to the cell that holds the return address. -/
def execCall (rt : Byte) (s : State) : Host.Outcome State Fault Refusal :=
  commit s do
    let _ ← fetchOperand 1 s
    let s1 ← decSp s
    let ret ← returnAddress s1
    let s2 ← memWrite (stackTop s1) ret s1
    jumpTo rt s2

/-- RET (44_control_transfer.md R132): no operand byte is read; the byte at SP goes to PC. -/
def execRet (s : State) : Host.Outcome State Fault Refusal :=
  commit s do
    let v ← memRead (stackTop s) s
    let s1 ← incSp s
    .ok (s1.setPc v.toNat)

/-- JMP Rt (44_control_transfer.md R133). -/
def execJmp (rt : Byte) (s : State) : Host.Outcome State Fault Refusal :=
  commit s do
    let _ ← fetchOperand 1 s
    jumpTo rt s

/-- JEQ Rt (44_control_transfer.md R134): taken when E is set; not taken, it reads no operand and checks no index
(R135, D11; log 10). -/
def execJeq (rt : Byte) (s : State) : Host.Outcome State Fault Refusal :=
  commit s <|
    if flagE s.fl then do
      let _ ← fetchOperand 1 s
      jumpTo rt s
    else .ok (skipBranch s)

/-- JNE Rt (44_control_transfer.md R136): taken when E is clear, before any CMP too; not taken as JEQ (R135, D11; log
10). -/
def execJne (rt : Byte) (s : State) : Host.Outcome State Fault Refusal :=
  commit s <|
    if flagE s.fl then .ok (skipBranch s)
    else do
      let _ ← fetchOperand 1 s
      jumpTo rt s

/-- An opcode with bit 5 clear that is neither HLT nor in the dispatch table (40_execution_cycle.md R86): no operand
byte is read. -/
def rejectUnknown (op : Byte) (s : State) : Host.Outcome State Fault Refusal :=
  raise (.unknownOpcode op) s

end Sys2Proof.Machine
end

