-- ==== Sys2Proof/Machine/LoadOutput.lean ====
section
/-! DEFINITION. LDI and PRN (42_load_and_output.md). -/

namespace Sys2Proof.Machine

/-- LDI Rd,imm (42_load_and_output.md R111). -/
def execLdi (rd imm : Byte) (s : State) : Host.Outcome State Fault Refusal :=
  commit s do
    let _ ← fetchOperand 1 s
    let _ ← fetchOperand 2 s
    let t ← setRegValue rd (immediate imm) s
    .ok (defaultAdvance opLDI t)

/-- PRN Rs (42_load_and_output.md R112): append the register's value to the output channel. -/
def execPrn (rs : Byte) (s : State) : Host.Outcome State Fault Refusal :=
  commit s do
    let _ ← fetchOperand 1 s
    let v ← regValue rs s
    .ok (defaultAdvance opPRN (s.emit v))

end Sys2Proof.Machine
end

