-- ==== Sys2Proof/Machine/Stack.lean ====
section
/-! DEFINITION. PUSH and POP (43_stack.md). -/

namespace Sys2Proof.Machine

/-- PUSH Rs (43_stack.md R121): SP is decremented first, the source register is read AFTER the decrement, so PUSH R7
stores the decremented SP. -/
def execPush (rs : Byte) (s : State) : Host.Outcome State Fault Refusal :=
  commit s do
    let _ ← fetchOperand 1 s
    let s1 ← decSp s
    let v ← regValue rs s1
    let s2 ← memWrite (stackTop s1) v s1
    .ok (defaultAdvance opPUSH s2)

/-- POP Rd (43_stack.md R122): the register is written BEFORE the increment, so POP R7 leaves the popped byte plus 1,
and it is that byte the increment's range check sees. -/
def execPop (rd : Byte) (s : State) : Host.Outcome State Fault Refusal :=
  commit s do
    let _ ← fetchOperand 1 s
    let v ← memRead (stackTop s) s
    let s1 ← setRegValue rd v s
    let s2 ← incSp s1
    .ok (defaultAdvance opPOP s2)

end Sys2Proof.Machine
end

