-- ==== Sys2Proof/Machine/Dispatch.lean ====
section
/-! DEFINITION. One arm per instruction: what an instruction does to a state whose IR holds its opcode and whose PC is
the address of its opcode byte (10_state.md R16). Whether the machine is RUNNING is `step`'s test, not exec's. -/

namespace Sys2Proof.Machine

def exec (i : Instr) (s : State) : Host.Outcome State Fault Refusal :=
  match i with
  | .hlt => Sys2Proof.Machine.execHlt s
  | .ret => Sys2Proof.Machine.execRet s
  | .push rs => Sys2Proof.Machine.execPush rs s
  | .pop rd => Sys2Proof.Machine.execPop rd s
  | .prn rs => Sys2Proof.Machine.execPrn rs s
  | .call rt => Sys2Proof.Machine.execCall rt s
  | .jmp rt => Sys2Proof.Machine.execJmp rt s
  | .jeq rt => Sys2Proof.Machine.execJeq rt s
  | .jne rt => Sys2Proof.Machine.execJne rt s
  | .ldi rd imm => Sys2Proof.Machine.execLdi rd imm s
  | .add ra rb => Sys2Proof.Machine.execAdd ra rb s
  | .mul ra rb => Sys2Proof.Machine.execMul ra rb s
  | .cmp ra rb => Sys2Proof.Machine.execCmp ra rb s

end Sys2Proof.Machine
end

