-- ==== Sys2Proof/Machine/Cycle.lean ====
section
/-! DEFINITION. One pass of the fetch-decode-execute loop on a RUNNING machine (40_execution_cycle.md R80 to R87). -/

namespace Sys2Proof.Machine

/-- The fetch: `ir <- MemRead(pc)`. Above 255 it raises and IR is unchanged (40_execution_cycle.md R81). -/
def fetch (s : State) : Except FatalError State := do
  let op ← memRead s.pc s
  .ok (s.setIr op)

/-- The byte k after the opcode, for the decoder; where there is no such cell, a byte no instruction uses (log 15). -/
def operandByte (k : Nat) (s : State) : Byte :=
  match fetchOperand k s with
  | .ok b => b
  | .error _ => Config.absentOperand

/-- The instruction of the opcode in IR and of the bytes after PC (40_execution_cycle.md R82 to R86). -/
def decodeFetched (s : State) : Except IllegalOpcode Instr :=
  decode s.ir (operandByte 1 s) (operandByte 2 s)

/-- Lines 2 to 5 of the step, after the fetch (40_execution_cycle.md R80). -/
def execute (s : State) : Host.Outcome State Fault Refusal :=
  match decodeFetched s with
  | .ok i => exec i s
  | .error (.unsupportedALU op) => rejectAlu op s
  | .error (.unknownOpcode op) => rejectUnknown op s

/-- One whole cycle (40_execution_cycle.md R80). -/
def cycle (s : State) : Host.Outcome State Fault Refusal :=
  match fetch s with
  | .ok f => execute f
  | .error e => raise e s

/-- The bytes of an instruction word stored where the next fetch reads: at PC, PC + 1 and PC + 2. -/
def storeFetchWord (s : State) (nbits w : Nat) : State := s.setMem (storeBytes s.pc (tableBytes nbits w) s.mem)

end Sys2Proof.Machine
end

