-- ==== Sys2Proof/Machine/Step.lean ====
section
/-! DEFINITION. One step of the machine (40_execution_cycle.md R80). -/

namespace Sys2Proof.Machine

/-- One step: defined only while RUNNING; HALTED and FAULTED are terminal (10_state.md R26). -/
def step (s : State) : Host.Outcome State Fault Refusal :=
  match s.run with
  | .running => cycle s
  | .halted => .fault .halted
  | .faulted e => .fault (.faulted e)

/-- The state with an instruction word of spec/opcode_table.json stored where the next step fetches: its three bytes at
PC, PC + 1 and PC + 2, the bits above nbits 0. It stands for the Loader's one action (70_reset_and_hazards.md R184;
log 12); nothing but memory changes. -/
def State.withFetchWord (s : State) (nbits w : Nat) : State := storeFetchWord s nbits w

end Sys2Proof.Machine
end

