-- ==== Sys2Proof/Laws/Decode.lean ====
section
/-! SUPPORT. The structural fields of the thirteen opcodes (30_encoding.md R61, R68), and what each table answers for
them, so that no proof computes with the opcode bytes. -/

namespace Sys2Proof

@[simp] theorem operandCount_opHLT : operandCount opHLT = 0 := by decide
@[simp] theorem operandCount_opRET : operandCount opRET = 0 := by decide
@[simp] theorem operandCount_opPUSH : operandCount opPUSH = 1 := by decide
@[simp] theorem operandCount_opPOP : operandCount opPOP = 1 := by decide
@[simp] theorem operandCount_opPRN : operandCount opPRN = 1 := by decide
@[simp] theorem operandCount_opCALL : operandCount opCALL = 1 := by decide
@[simp] theorem operandCount_opJMP : operandCount opJMP = 1 := by decide
@[simp] theorem operandCount_opJEQ : operandCount opJEQ = 1 := by decide
@[simp] theorem operandCount_opJNE : operandCount opJNE = 1 := by decide
@[simp] theorem operandCount_opLDI : operandCount opLDI = 2 := by decide
@[simp] theorem operandCount_opADD : operandCount opADD = 2 := by decide
@[simp] theorem operandCount_opMUL : operandCount opMUL = 2 := by decide
@[simp] theorem operandCount_opCMP : operandCount opCMP = 2 := by decide

@[simp] theorem isAlu_opHLT : isAlu opHLT = false := by decide
@[simp] theorem isAlu_opRET : isAlu opRET = false := by decide
@[simp] theorem isAlu_opPUSH : isAlu opPUSH = false := by decide
@[simp] theorem isAlu_opPOP : isAlu opPOP = false := by decide
@[simp] theorem isAlu_opPRN : isAlu opPRN = false := by decide
@[simp] theorem isAlu_opCALL : isAlu opCALL = false := by decide
@[simp] theorem isAlu_opJMP : isAlu opJMP = false := by decide
@[simp] theorem isAlu_opJEQ : isAlu opJEQ = false := by decide
@[simp] theorem isAlu_opJNE : isAlu opJNE = false := by decide
@[simp] theorem isAlu_opLDI : isAlu opLDI = false := by decide
@[simp] theorem isAlu_opADD : isAlu opADD = true := by decide
@[simp] theorem isAlu_opMUL : isAlu opMUL = true := by decide
@[simp] theorem isAlu_opCMP : isAlu opCMP = true := by decide

@[simp] theorem setsPc_opHLT : setsPc opHLT = false := by decide
@[simp] theorem setsPc_opRET : setsPc opRET = true := by decide
@[simp] theorem setsPc_opPUSH : setsPc opPUSH = false := by decide
@[simp] theorem setsPc_opPOP : setsPc opPOP = false := by decide
@[simp] theorem setsPc_opPRN : setsPc opPRN = false := by decide
@[simp] theorem setsPc_opCALL : setsPc opCALL = true := by decide
@[simp] theorem setsPc_opJMP : setsPc opJMP = true := by decide
@[simp] theorem setsPc_opJEQ : setsPc opJEQ = true := by decide
@[simp] theorem setsPc_opJNE : setsPc opJNE = true := by decide
@[simp] theorem setsPc_opLDI : setsPc opLDI = false := by decide
@[simp] theorem setsPc_opADD : setsPc opADD = false := by decide
@[simp] theorem setsPc_opMUL : setsPc opMUL = false := by decide
@[simp] theorem setsPc_opCMP : setsPc opCMP = false := by decide

@[simp] theorem aluSelect_opADD : aluSelect opADD = some .add := by decide
@[simp] theorem aluSelect_opMUL : aluSelect opMUL = some .mul := by decide
@[simp] theorem aluSelect_opCMP : aluSelect opCMP = some .cmp := by decide
@[simp] theorem dispatchLookup_opLDI : dispatchLookup opLDI = some .ldi := by decide
@[simp] theorem dispatchLookup_opPRN : dispatchLookup opPRN = some .prn := by decide
@[simp] theorem dispatchLookup_opPUSH : dispatchLookup opPUSH = some .push := by decide
@[simp] theorem dispatchLookup_opPOP : dispatchLookup opPOP = some .pop := by decide
@[simp] theorem dispatchLookup_opCALL : dispatchLookup opCALL = some .call := by decide
@[simp] theorem dispatchLookup_opRET : dispatchLookup opRET = some .ret := by decide
@[simp] theorem dispatchLookup_opJMP : dispatchLookup opJMP = some .jmp := by decide
@[simp] theorem dispatchLookup_opJEQ : dispatchLookup opJEQ = some .jeq := by decide
@[simp] theorem dispatchLookup_opJNE : dispatchLookup opJNE = some .jne := by decide

end Sys2Proof
end

