-- ==== Sys2Proof/Machine/HostInterface.lean ====
section
/-! DEFINITION. What the host can do (70_reset_and_hazards.md R184 to R186): load an image before the first step, read
the output channel and the run state. And the text of the output channel (42_load_and_output.md R112). -/

namespace Sys2Proof.Machine

/-- The load, before the first step: the image's bytes from address 0, every other cell at its reset value, the rest of
the state at reset. An image of more than 256 bytes is refused (70_reset_and_hazards.md R184, D13; log 12). -/
def loadImage (image : List Byte) : Host.Outcome State Fault Refusal :=
  if image.length ≤ Config.maxImage then
    .next (State.reset.setMem (storeBytes Config.loadBase image State.reset.mem))
  else .refused (.imageTooLong image.length)

/-- The observable result of a run: the output sequence and the run state (70_reset_and_hazards.md R186). -/
def observe (s : State) : List Byte × RunState := (s.output, s.run)

/-- The digits of the shortest decimal numeral of a byte: no sign, no leading zero, 0 for zero (42_load_and_output.md
R112). -/
def decimalDigits (v : Byte) : List Nat :=
  if v.toNat < 10 then [v.toNat]
  else if v.toNat < 100 then [v.toNat / 10, v.toNat % 10]
  else [v.toNat / 100, v.toNat / 10 % 10, v.toNat % 10]

/-- The text of one entry of the output channel: its numeral and one newline. The newline's byte is not the spec's
(R112); the line feed is a DESIGN CHOICE (log 11). -/
def entryText (v : Byte) : List Char := (decimalDigits v).map (fun d => Char.ofNat (48 + d)) ++ ['\n']

/-- The text of the whole output channel, one numeral per line (42_load_and_output.md R112, 10_state.md R30). -/
def outputText (s : State) : List Char := s.output.flatMap entryText

end Sys2Proof.Machine
end

