-- ==== Sys2Proof/Safety.lean ====
section
/-! DEFINITION. The terms in which claims are made: the invariant of a legal state, the errors of an instruction as the
spec lists them (an independent reading of each rule's "Exceptions, in order" and of 60_exceptions.md R151, R154, R158),
what an instruction may write, and runs. -/

namespace Sys2Proof.Machine

/-! ## The invariant -/

/-- The reachable values of FL (10_state.md R23): nothing set, or exactly one of E, G, L. -/
def legalFlags (fl : Byte) : Prop := fl = 0b000#8 ∨ fl = 0b001#8 ∨ fl = 0b010#8 ∨ fl = 0b100#8

/-- What the run state says of the rest of the state: a HALTED machine has the HLT opcode in IR and at PC (10_state.md
R18, R24), and an error record carries an info value that 60_exceptions.md R150 to R154 allow. -/
def recordLegal (s : State) : Prop :=
  match s.run with
  | .running => True
  | .halted => s.pc < 256 ∧ s.ir = opHLT ∧ s.mem.read s.pc = opHLT
  | .faulted (.memoryOutOfBounds a) => a = -1 ∨ a = 256 ∨ a = 257
  | .faulted (.unsupportedALUOperation op) =>
    s.pc < 254 ∧ s.ir = op ∧ s.mem.read s.pc = op ∧ isAlu op = true ∧ aluSelect op = none
  | .faulted (.unknownOpcode op) =>
    s.pc < 256 ∧ s.ir = op ∧ s.mem.read s.pc = op ∧ isAlu op = false ∧ op ≠ opHLT ∧ dispatchLookup op = none
  | .faulted (.registerIndexOutOfRange i) => 8 ≤ i ∧ i ≤ 255

/-- The invariant of the machine: canonical memory, PC in its reachable range 0 to 257 (10_state.md R15, R19), a legal
FL (R23), and a run state that agrees with the rest. -/
structure Inv (s : State) : Prop where
  memory : s.mem.wf = true
  pcRange : s.pc ≤ 257
  flags : legalFlags s.fl
  record : recordLegal s

/-! ## The errors of an instruction, in order -/

/-- MemoryOutOfBounds on the first of the operand bytes at `pc+1` to `pc+n` that lies above 255 (60_exceptions.md
R151). -/
def operandError (n : Nat) (s : State) : Option FatalError :=
  if 1 ≤ n ∧ 255 < s.pc + 1 then some (.memoryOutOfBounds (s.pc + 1 : Nat))
  else if 2 ≤ n ∧ 255 < s.pc + 2 then some (.memoryOutOfBounds (s.pc + 2 : Nat))
  else none

/-- RegisterIndexOutOfRange of a register operand (60_exceptions.md R154). -/
def indexError (r : Byte) : Option FatalError :=
  if 7 < r.toNat then some (.registerIndexOutOfRange r.toNat) else none

/-- A push below address 0 (60_exceptions.md R151). -/
def pushError (s : State) : Option FatalError := if sp s = 0x00#8 then some (.memoryOutOfBounds (-1)) else none

/-- A pop above address 255, by the SP that would be incremented (60_exceptions.md R151). -/
def popError (spToIncrement : Byte) : Option FatalError :=
  if spToIncrement = 0xFF#8 then some (.memoryOutOfBounds 256) else none

/-- A return address above 255 (60_exceptions.md R151). -/
def returnError (s : State) : Option FatalError :=
  if 255 < s.pc + 2 then some (.memoryOutOfBounds (s.pc + 2 : Nat)) else none

/-- The SP that a POP would increment: the popped byte for POP R7, else SP itself (43_stack.md R122). -/
def popSp (rd : Byte) (s : State) : Byte := if rd = 0x07#8 then s.mem.read (stackTop s) else sp s

/-- The first error an instruction meets, or none: each rule's list of exceptions in its order (60_exceptions.md
R158). -/
def firstError : Instr → State → Option FatalError
  | .hlt, _ => none
  | .ret, s => popError (sp s)
  | .push rs, s => operandError 1 s <|> pushError s <|> indexError rs
  | .pop rd, s => operandError 1 s <|> indexError rd <|> popError (popSp rd s)
  | .prn rs, s => operandError 1 s <|> indexError rs
  | .call rt, s => operandError 1 s <|> pushError s <|> returnError s <|> indexError rt
  | .jmp rt, s => operandError 1 s <|> indexError rt
  | .jeq rt, s => if flagE s.fl then operandError 1 s <|> indexError rt else none
  | .jne rt, s => if flagE s.fl then none else operandError 1 s <|> indexError rt
  | .ldi rd _, s => operandError 2 s <|> indexError rd
  | .add ra rb, s => operandError 2 s <|> indexError ra <|> indexError rb
  | .mul ra rb, s => operandError 2 s <|> indexError ra <|> indexError rb
  | .cmp ra rb, s => operandError 2 s <|> indexError ra <|> indexError rb

/-! ## What an instruction may write -/

/-- The registers an instruction writes (the table of 10_state.md R11). -/
def destinations : Instr → List Nat
  | .hlt => []
  | .ret => [7]
  | .push _ => [7]
  | .pop rd => [rd.toNat, 7]
  | .prn _ => []
  | .call _ => [7]
  | .jmp _ => []
  | .jeq _ => []
  | .jne _ => []
  | .ldi rd _ => [rd.toNat]
  | .add ra _ => [ra.toNat]
  | .mul ra _ => [ra.toNat]
  | .cmp _ _ => []

/-- The address an instruction stores its one byte to: where SP points after the decrement, for PUSH and CALL; no other
instruction stores (the table of 20_memory.md R42). -/
def storedAddress (i : Instr) (s : State) : Option Nat :=
  match i with
  | .push _ | .call _ =>
    match decSp s with
    | .ok s1 => some (stackTop s1)
    | .error _ => none
  | .hlt | .ret | .pop _ | .prn _ | .jmp _ | .jeq _ | .jne _ | .ldi _ _ | .add _ _ | .mul _ _ | .cmp _ _ => none

/-! ## Programs in memory -/

/-- The bytes stand in memory from address a on, all of them at addresses 0 to 255. -/
def HoldsAt (s : State) (a : Nat) (bytes : List Byte) : Prop :=
  a + bytes.length ≤ 256 ∧ ∀ (k : Nat) (h : k < bytes.length), s.mem.read (a + k) = bytes[k]

/-! ## Runs -/

/-- The state after n steps, or where the machine stopped (40_execution_cycle.md R89). -/
def runFor : Nat → State → State
  | 0, s => s
  | n + 1, s =>
    match step s with
    | .next t => runFor n t
    | .fault _ => s
    | .refused _ => s

/-- A safe run: no fatal error ever stops it. It may halt, and it may run for ever (40_execution_cycle.md R89). -/
def SafeRun (s : State) : Prop := ∀ (n : Nat) (e : FatalError), (runFor n s).run ≠ .faulted e

/-- A run that ends normally with this output (40_execution_cycle.md R90, 60_exceptions.md R160). -/
def HaltsWith (s : State) (out : List Byte) : Prop := ∃ n, observe (runFor n s) = (out, .halted)

end Sys2Proof.Machine
end

