-- ==== Sys2Proof/Laws/State.lean ====
section
/-! SUPPORT. Each field after each update of the state, so that no proof unfolds a record update. -/

namespace Sys2Proof.Machine.State

variable (s : State)

@[simp] theorem setMem_mem (m : Memory) : (s.setMem m).mem = m := rfl
@[simp] theorem setMem_regs (m : Memory) : (s.setMem m).regs = s.regs := rfl
@[simp] theorem setMem_pc (m : Memory) : (s.setMem m).pc = s.pc := rfl
@[simp] theorem setMem_ir (m : Memory) : (s.setMem m).ir = s.ir := rfl
@[simp] theorem setMem_fl (m : Memory) : (s.setMem m).fl = s.fl := rfl
@[simp] theorem setMem_run (m : Memory) : (s.setMem m).run = s.run := rfl
@[simp] theorem setMem_output (m : Memory) : (s.setMem m).output = s.output := rfl

@[simp] theorem setRegs_mem (r : Vector Byte 8) : (s.setRegs r).mem = s.mem := rfl
@[simp] theorem setRegs_regs (r : Vector Byte 8) : (s.setRegs r).regs = r := rfl
@[simp] theorem setRegs_pc (r : Vector Byte 8) : (s.setRegs r).pc = s.pc := rfl
@[simp] theorem setRegs_ir (r : Vector Byte 8) : (s.setRegs r).ir = s.ir := rfl
@[simp] theorem setRegs_fl (r : Vector Byte 8) : (s.setRegs r).fl = s.fl := rfl
@[simp] theorem setRegs_run (r : Vector Byte 8) : (s.setRegs r).run = s.run := rfl
@[simp] theorem setRegs_output (r : Vector Byte 8) : (s.setRegs r).output = s.output := rfl

@[simp] theorem setPc_mem (t : Nat) : (s.setPc t).mem = s.mem := rfl
@[simp] theorem setPc_regs (t : Nat) : (s.setPc t).regs = s.regs := rfl
@[simp] theorem setPc_pc (t : Nat) : (s.setPc t).pc = t := rfl
@[simp] theorem setPc_ir (t : Nat) : (s.setPc t).ir = s.ir := rfl
@[simp] theorem setPc_fl (t : Nat) : (s.setPc t).fl = s.fl := rfl
@[simp] theorem setPc_run (t : Nat) : (s.setPc t).run = s.run := rfl
@[simp] theorem setPc_output (t : Nat) : (s.setPc t).output = s.output := rfl

@[simp] theorem setIr_mem (op : Byte) : (s.setIr op).mem = s.mem := rfl
@[simp] theorem setIr_regs (op : Byte) : (s.setIr op).regs = s.regs := rfl
@[simp] theorem setIr_pc (op : Byte) : (s.setIr op).pc = s.pc := rfl
@[simp] theorem setIr_ir (op : Byte) : (s.setIr op).ir = op := rfl
@[simp] theorem setIr_fl (op : Byte) : (s.setIr op).fl = s.fl := rfl
@[simp] theorem setIr_run (op : Byte) : (s.setIr op).run = s.run := rfl
@[simp] theorem setIr_output (op : Byte) : (s.setIr op).output = s.output := rfl

@[simp] theorem setFl_mem (f : Byte) : (s.setFl f).mem = s.mem := rfl
@[simp] theorem setFl_regs (f : Byte) : (s.setFl f).regs = s.regs := rfl
@[simp] theorem setFl_pc (f : Byte) : (s.setFl f).pc = s.pc := rfl
@[simp] theorem setFl_ir (f : Byte) : (s.setFl f).ir = s.ir := rfl
@[simp] theorem setFl_fl (f : Byte) : (s.setFl f).fl = f := rfl
@[simp] theorem setFl_run (f : Byte) : (s.setFl f).run = s.run := rfl
@[simp] theorem setFl_output (f : Byte) : (s.setFl f).output = s.output := rfl

@[simp] theorem setRun_mem (r : RunState) : (s.setRun r).mem = s.mem := rfl
@[simp] theorem setRun_regs (r : RunState) : (s.setRun r).regs = s.regs := rfl
@[simp] theorem setRun_pc (r : RunState) : (s.setRun r).pc = s.pc := rfl
@[simp] theorem setRun_ir (r : RunState) : (s.setRun r).ir = s.ir := rfl
@[simp] theorem setRun_fl (r : RunState) : (s.setRun r).fl = s.fl := rfl
@[simp] theorem setRun_run (r : RunState) : (s.setRun r).run = r := rfl
@[simp] theorem setRun_output (r : RunState) : (s.setRun r).output = s.output := rfl

@[simp] theorem emit_mem (v : Byte) : (s.emit v).mem = s.mem := rfl
@[simp] theorem emit_regs (v : Byte) : (s.emit v).regs = s.regs := rfl
@[simp] theorem emit_pc (v : Byte) : (s.emit v).pc = s.pc := rfl
@[simp] theorem emit_ir (v : Byte) : (s.emit v).ir = s.ir := rfl
@[simp] theorem emit_fl (v : Byte) : (s.emit v).fl = s.fl := rfl
@[simp] theorem emit_run (v : Byte) : (s.emit v).run = s.run := rfl
@[simp] theorem emit_output (v : Byte) : (s.emit v).output = s.output ++ [v] := rfl

@[simp] theorem reset_mem : State.reset.mem = [] := rfl
@[simp] theorem reset_pc : State.reset.pc = 0 := rfl
@[simp] theorem reset_fl : State.reset.fl = 0x00#8 := rfl
@[simp] theorem reset_run : State.reset.run = .running := rfl
@[simp] theorem reset_output : State.reset.output = [] := rfl

/-- Two states that agree in every field are equal. -/
theorem ext_fields {s t : State} (hm : s.mem = t.mem) (hr : s.regs = t.regs) (hp : s.pc = t.pc) (hi : s.ir = t.ir)
    (hf : s.fl = t.fl) (hn : s.run = t.run) (ho : s.output = t.output) : s = t := by
  cases s; cases t; simp_all

end Sys2Proof.Machine.State
end

