-- ==== Sys2Proof/Laws/Memory.lean ====
section
/-! SUPPORT. The laws of memory: reading what was written, leaving the rest alone, keeping the canonical form, and that
equal readings make equal canonical memories. -/

namespace Sys2Proof.Machine.Memory

@[simp] theorem read_nil (a : Nat) : Memory.read [] a = Config.memFill := rfl

@[simp] theorem wf_nil : Memory.wf [] = true := rfl

theorem risingFrom_cons {lo a : Nat} {v : Byte} {m : Memory} :
    risingFrom lo ((a, v) :: m) = true ↔
      lo ≤ a ∧ a < 256 ∧ v ≠ 0x00#8 ∧ risingFrom (a + 1) m = true := by
  simp [risingFrom, and_assoc]

/-- A lower bound may be lowered. -/
theorem risingFrom_mono {lo lo' : Nat} {m : Memory} (h : risingFrom lo m = true) (hl : lo' ≤ lo) :
    risingFrom lo' m = true := by
  cases m with
  | nil => rfl
  | cons c m =>
    obtain ⟨a, v⟩ := c
    rw [risingFrom_cons] at h ⊢
    exact ⟨by omega, h.2⟩

/-- Below its lowest listed address a canonical memory reads as the fill. -/
theorem read_below {lo a : Nat} {m : Memory} (h : risingFrom lo m = true) (ha : a < lo) :
    m.read a = 0x00#8 := by
  induction m generalizing lo with
  | nil => rfl
  | cons c m ih =>
    obtain ⟨b, w⟩ := c
    rw [risingFrom_cons] at h
    have hne : a ≠ b := by omega
    simp only [read, hne, if_false]
    exact ih h.2.2.2 (by omega)

/-- A write leaves every other cell alone, in canonical form or not. -/
theorem read_write_other (m : Memory) {a b : Nat} (v : Byte) (h : b ≠ a) : (m.write a v).read b = m.read b := by
  induction m with
  | nil => by_cases hv : v = 0x00#8 <;> simp [write, read, hv, h]
  | cons c m ih =>
    obtain ⟨k, w⟩ := c
    simp only [write]
    split
    · split <;> simp [read, h]
    · split
      · subst_vars
        split <;> simp [read, h]
      · by_cases hk : b = k <;> simp [read, hk, ih]

/-- A read of the cell just written gives the byte written. -/
theorem read_write_same {lo : Nat} {m : Memory} (a : Nat) (v : Byte) (h : risingFrom lo m = true) :
    (m.write a v).read a = v := by
  induction m generalizing lo with
  | nil => by_cases hv : v = 0x00#8 <;> simp [write, read, hv]
  | cons c m ih =>
    obtain ⟨k, w⟩ := c
    have hk := risingFrom_cons.1 h
    simp only [write]
    split
    · split
      · subst_vars
        exact read_below (lo := k) (risingFrom_cons.2 ⟨le_refl k, hk.2⟩) ‹a < k›
      · simp [read]
    · split
      · subst_vars
        split
        · subst_vars
          exact read_below hk.2.2.2 (by omega)
        · simp [read]
      · have hne : a ≠ k := by assumption
        simp only [read, hne, if_false]
        exact ih hk.2.2.2

theorem read_write_wf {m : Memory} (a b : Nat) (v : Byte) (h : m.wf = true) :
    (m.write a v).read b = if b = a then v else m.read b := by
  by_cases hb : b = a
  · subst hb
    rw [if_pos rfl]
    exact read_write_same b v h
  · simp [hb, read_write_other m v hb]

/-- A write keeps the addresses rising. -/
theorem write_risingFrom {lo : Nat} {m : Memory} {a : Nat} (v : Byte) (h : risingFrom lo m = true) (hlo : lo ≤ a)
    (ha : a < 256) : risingFrom lo (m.write a v) = true := by
  induction m generalizing lo with
  | nil =>
    by_cases hv : v = 0x00#8
    · simp [write, hv, risingFrom]
    · simp [write, hv, risingFrom, hlo, ha]
  | cons c m ih =>
    obtain ⟨k, w⟩ := c
    have hk := risingFrom_cons.1 h
    simp only [write]
    split
    · split
      · exact h
      · exact risingFrom_cons.2 ⟨hlo, ha, by assumption, risingFrom_cons.2 ⟨by omega, hk.2⟩⟩
    · split
      · subst_vars
        split
        · exact risingFrom_mono hk.2.2.2 (by omega)
        · exact risingFrom_cons.2 ⟨hlo, ha, by assumption, hk.2.2.2⟩
      · exact risingFrom_cons.2 ⟨hk.1, hk.2.1, hk.2.2.1, ih hk.2.2.2 (by omega)⟩

/-- A write to a cell that exists keeps the canonical form. -/
theorem write_wf {m : Memory} {a : Nat} (v : Byte) (h : m.wf = true) (ha : a < 256) : (m.write a v).wf = true :=
  write_risingFrom v h (Nat.zero_le a) ha

/-- Storing bytes keeps the canonical form, wherever they fall. -/
theorem storeBytes_wf {m : Memory} (a : Nat) (vs : List Byte) (h : m.wf = true) : (storeBytes a vs m).wf = true := by
  induction vs generalizing a m with
  | nil => exact h
  | cons v vs ih =>
    simp only [storeBytes]
    split
    · exact ih _ (write_wf v h (by assumption))
    · exact ih _ h

/-- Two canonical memories that read alike are the same list. -/
theorem eq_of_read_eq {lo : Nat} {m n : Memory} (hm : risingFrom lo m = true) (hn : risingFrom lo n = true)
    (h : ∀ a, m.read a = n.read a) : m = n := by
  induction m generalizing lo n with
  | nil =>
    cases n with
    | nil => rfl
    | cons c n =>
      obtain ⟨b, w⟩ := c
      have hb := risingFrom_cons.1 hn
      have := h b
      simp only [read, if_true] at this
      exact absurd this.symm hb.2.2.1
  | cons c m ih =>
    obtain ⟨a, v⟩ := c
    have ha := risingFrom_cons.1 hm
    cases n with
    | nil =>
      have := h a
      simp only [read, if_true] at this
      exact absurd this ha.2.2.1
    | cons d n =>
      obtain ⟨b, w⟩ := d
      have hb := risingFrom_cons.1 hn
      have hab : a = b := by
        rcases Nat.lt_trichotomy a b with hlt | heq | hgt
        · have h1 := h a
          have hne : a ≠ b := by omega
          simp only [read, if_true, hne, if_false] at h1
          exact absurd (h1.trans (read_below hb.2.2.2 (by omega))) ha.2.2.1
        · exact heq
        · have h1 := h b
          have hne : b ≠ a := by omega
          simp only [read, if_true, hne, if_false] at h1
          exact absurd (h1.symm.trans (read_below ha.2.2.2 (by omega))) hb.2.2.1
      subst hab
      have hv : v = w := by simpa [read] using h a
      subst hv
      congr 1
      refine ih ha.2.2.2 hb.2.2.2 fun x => ?_
      by_cases hx : x = a
      · subst hx
        rw [read_below ha.2.2.2 (by omega), read_below hb.2.2.2 (by omega)]
      · simpa [read, hx] using h x

end Sys2Proof.Machine.Memory
end

