-- ==== Sys2Proof/Laws/Ops.lean ====
section
/-! SUPPORT. For each shared operation, the one lemma that says all it can do, and its small lemmas; later proofs cite
these and never unfold the operation. -/

namespace Sys2Proof.Machine

variable {s t : State} {e : FatalError} {v : Byte}

/-! ## Sequencing -/

theorem bind_ok {α β : Type} {x : Except FatalError α} {f : α → Except FatalError β} {r : β} :
    (x >>= f) = .ok r ↔ ∃ a, x = .ok a ∧ f a = .ok r := by
  cases x <;> simp [bind, Except.bind]

theorem bind_error {α β : Type} {x : Except FatalError α} {f : α → Except FatalError β} :
    (x >>= f) = .error e ↔ x = .error e ∨ ∃ a, x = .ok a ∧ f a = .error e := by
  cases x <;> simp [bind, Except.bind]

@[simp] theorem ok_bind {α β : Type} (a : α) (f : α → Except FatalError β) : (Except.ok a >>= f) = f a := rfl

@[simp] theorem error_bind {α β : Type} (e : FatalError) (f : α → Except FatalError β) :
    (Except.error e >>= f) = .error e := rfl

/-- All that ending an instruction can do: keep all its effects, or record its error and keep none. -/
theorem commit_cases {body : Except FatalError State} {r : Host.Outcome State Fault Refusal} (h : commit s body = r) :
    (∃ t, body = .ok t ∧ r = .next t) ∨ (∃ e, body = .error e ∧ r = .next (s.setRun (.faulted e))) := by
  cases body with
  | ok t => exact .inl ⟨t, rfl, h.symm⟩
  | error e => exact .inr ⟨e, rfl, h.symm⟩

@[simp] theorem commit_ok (s t : State) : commit s (.ok t) = .next t := rfl

@[simp] theorem commit_error (s : State) (e : FatalError) : commit s (.error e) = .next (s.setRun (.faulted e)) := rfl

theorem raise_eq (e : FatalError) (s : State) : raise e s = .next (s.setRun (.faulted e)) := rfl

/-! ## Memory -/

theorem memRead_ok {a : Nat} : memRead a s = .ok v ↔ a < 256 ∧ v = s.mem.read a := by
  unfold memRead
  split <;> simp_all [eq_comm]

theorem memRead_error {a : Nat} : memRead a s = .error e ↔ 256 ≤ a ∧ e = .memoryOutOfBounds a := by
  unfold memRead
  split <;> simp_all [eq_comm]

theorem memRead_of_lt {a : Nat} (h : a < 256) : memRead a s = .ok (s.mem.read a) := memRead_ok.2 ⟨h, rfl⟩

theorem memRead_of_ge {a : Nat} (h : 256 ≤ a) : memRead a s = .error (.memoryOutOfBounds a) :=
  memRead_error.2 ⟨h, rfl⟩

theorem memWrite_ok {a : Nat} : memWrite a v s = .ok t ↔ a < 256 ∧ t = s.setMem (s.mem.write a v) := by
  unfold memWrite
  split <;> simp_all [eq_comm]

theorem memWrite_of_lt {a : Nat} (h : a < 256) : memWrite a v s = .ok (s.setMem (s.mem.write a v)) :=
  memWrite_ok.2 ⟨h, rfl⟩

/-- A store keeps the canonical form. -/
theorem memWrite_keeps_wf {a : Nat} (h : memWrite a v s = .ok t) (hw : s.mem.wf = true) : t.mem.wf = true := by
  obtain ⟨ha, rfl⟩ := memWrite_ok.1 h
  exact Memory.write_wf v hw ha

/-! ## Registers -/

theorem readReg_ok {i : Nat} : readReg i s = .ok v ↔ ∃ h : i < 8, v = s.regs[i] := by
  unfold readReg
  split <;> simp_all [eq_comm]

theorem readReg_error {i : Nat} : readReg i s = .error e ↔ 8 ≤ i ∧ e = .registerIndexOutOfRange i := by
  unfold readReg
  split
  · simp; omega
  · simp_all [eq_comm]

theorem readReg_of_lt {i : Nat} (h : i < 8) : readReg i s = .ok s.regs[i] := readReg_ok.2 ⟨h, rfl⟩

theorem readReg_of_ge {i : Nat} (h : 8 ≤ i) : readReg i s = .error (.registerIndexOutOfRange i) :=
  readReg_error.2 ⟨h, rfl⟩

theorem writeReg_ok {i : Nat} : writeReg i v s = .ok t ↔ ∃ h : i < 8, t = s.setRegs (s.regs.set i v h) := by
  unfold writeReg
  split <;> simp_all [eq_comm]

theorem writeReg_error {i : Nat} : writeReg i v s = .error e ↔ 8 ≤ i ∧ e = .registerIndexOutOfRange i := by
  unfold writeReg
  split
  · simp; omega
  · simp_all [eq_comm]

theorem writeReg_of_lt {i : Nat} (h : i < 8) : writeReg i v s = .ok (s.setRegs (s.regs.set i v h)) :=
  writeReg_ok.2 ⟨h, rfl⟩

theorem writeReg_of_ge {i : Nat} (h : 8 ≤ i) : writeReg i v s = .error (.registerIndexOutOfRange i) :=
  writeReg_error.2 ⟨h, rfl⟩

@[simp] theorem lowByte_toNat (n : Nat) : (lowByte n).toNat = n % 256 := by simp [lowByte]

@[simp] theorem setSp_mem (v : Byte) (s : State) : (setSp v s).mem = s.mem := rfl
@[simp] theorem setSp_regs (v : Byte) (s : State) : (setSp v s).regs = s.regs.set 7 v := rfl
@[simp] theorem setSp_pc (v : Byte) (s : State) : (setSp v s).pc = s.pc := rfl
@[simp] theorem setSp_ir (v : Byte) (s : State) : (setSp v s).ir = s.ir := rfl
@[simp] theorem setSp_fl (v : Byte) (s : State) : (setSp v s).fl = s.fl := rfl
@[simp] theorem setSp_run (v : Byte) (s : State) : (setSp v s).run = s.run := rfl
@[simp] theorem setSp_output (v : Byte) (s : State) : (setSp v s).output = s.output := rfl
@[simp] theorem sp_setSp (v : Byte) (s : State) : sp (setSp v s) = v := by simp [sp]

theorem stackTop_lt (s : State) : stackTop s < 256 := (sp s).isLt

/-! ## The stack pointer's two moves -/

theorem decSp_ok : decSp s = .ok t ↔ sp s ≠ 0x00#8 ∧ t = setSp (lowByte ((sp s).toNat - 1)) s := by
  unfold decSp
  split <;> simp_all [eq_comm]

theorem decSp_error : decSp s = .error e ↔ sp s = 0x00#8 ∧ e = .memoryOutOfBounds (-1) := by
  unfold decSp
  split <;> simp_all [eq_comm]

theorem incSp_ok : incSp s = .ok t ↔ sp s ≠ 0xFF#8 ∧ t = setSp (lowByte ((sp s).toNat + 1)) s := by
  unfold incSp
  split <;> simp_all [eq_comm]

theorem incSp_error : incSp s = .error e ↔ sp s = 0xFF#8 ∧ e = .memoryOutOfBounds 256 := by
  unfold incSp
  split <;> simp_all [eq_comm]

/-- A pushed byte lies one below the old SP. -/
theorem decSp_stackTop (h : decSp s = .ok t) : stackTop t = stackTop s - 1 := by
  obtain ⟨hne, rfl⟩ := decSp_ok.1 h
  have := (sp s).isLt
  simp only [stackTop, sp_setSp, lowByte_toNat]
  omega

theorem returnAddress_ok : returnAddress s = .ok v ↔ s.pc < 254 ∧ v = lowByte (s.pc + 2) := by
  unfold returnAddress
  split
  · rename_i h
    simp only [Config.memSize] at h
    simp only [Except.ok.injEq, eq_comm (b := v)]
    constructor
    · exact fun hv => ⟨by omega, hv⟩
    · exact fun hv => hv.2
  · rename_i h
    simp only [Config.memSize] at h
    simp only [reduceCtorEq, false_iff, not_and]
    omega

/-! ## Operands and jumps -/

theorem fetchOperand_ok {k : Nat} : fetchOperand k s = .ok v ↔ s.pc + k < 256 ∧ v = s.mem.read (s.pc + k) := memRead_ok

theorem fetchOperand_error {k : Nat} :
    fetchOperand k s = .error e ↔ 256 ≤ s.pc + k ∧ e = .memoryOutOfBounds (s.pc + k : Nat) := memRead_error

theorem fetchOperand_of_lt {k : Nat} (h : s.pc + k < 256) : fetchOperand k s = .ok (s.mem.read (s.pc + k)) :=
  memRead_of_lt h

theorem fetchOperand_of_ge {k : Nat} (h : 256 ≤ s.pc + k) :
    fetchOperand k s = .error (.memoryOutOfBounds (s.pc + k : Nat)) := memRead_of_ge h

theorem jumpTo_ok {r : Byte} : jumpTo r s = .ok t ↔ ∃ h : r.toNat < 8, t = s.setPc (s.regs[r.toNat]).toNat := by
  simp only [jumpTo, regValue, bind_ok, readReg_ok]
  constructor
  · rintro ⟨a, ⟨h, rfl⟩, ht⟩
    exact ⟨h, by simpa [eq_comm] using ht⟩
  · rintro ⟨h, rfl⟩
    exact ⟨_, ⟨h, rfl⟩, rfl⟩

theorem jumpTo_error {r : Byte} : jumpTo r s = .error e ↔ 8 ≤ r.toNat ∧ e = .registerIndexOutOfRange r.toNat := by
  simp [jumpTo, regValue, bind_error, readReg_error]

theorem aluOperands_ok {u : Unit} : aluOperands s = .ok u ↔ s.pc + 2 < 256 := by
  simp only [aluOperands, bind_ok, fetchOperand_ok]
  constructor
  · rintro ⟨_, ⟨_, _⟩, _, ⟨h, _⟩, _⟩
    exact h
  · exact fun h => ⟨_, ⟨by omega, rfl⟩, _, ⟨h, rfl⟩, trivial⟩

/-- The ALU path's operand reads fail on the first address above 255. -/
theorem aluOperands_error :
    aluOperands s = .error e ↔
      (256 ≤ s.pc + 1 ∧ e = .memoryOutOfBounds (s.pc + 1 : Nat)) ∨
      (s.pc + 1 < 256 ∧ 256 ≤ s.pc + 2 ∧ e = .memoryOutOfBounds (s.pc + 2 : Nat)) := by
  simp only [aluOperands, bind_error, fetchOperand_error, fetchOperand_ok, reduceCtorEq, and_false, exists_false,
    or_false]
  constructor
  · rintro (h | ⟨_, ⟨h1, _⟩, h2, he⟩)
    · exact .inl h
    · exact .inr ⟨h1, h2, he⟩
  · rintro (h | ⟨h1, h2, he⟩)
    · exact .inl h
    · exact .inr ⟨_, ⟨h1, rfl⟩, h2, he⟩

@[simp] theorem skipBranch_eq (s : State) : skipBranch s = s.setPc (s.pc + 2) := rfl

/-! ## The cycle -/

theorem fetch_ok : fetch s = .ok t ↔ s.pc < 256 ∧ t = s.setIr (s.mem.read s.pc) := by
  simp only [fetch, bind_ok, memRead_ok]
  constructor
  · rintro ⟨a, ⟨h, rfl⟩, ht⟩
    exact ⟨h, by simpa [eq_comm] using ht⟩
  · rintro ⟨h, rfl⟩
    exact ⟨_, ⟨h, rfl⟩, rfl⟩

theorem fetch_error : fetch s = .error e ↔ 256 ≤ s.pc ∧ e = .memoryOutOfBounds s.pc := by
  simp [fetch, bind_error, memRead_error]

/-- A byte the decoder is handed is the memory's, where there is such a cell. -/
theorem operandByte_of_lt {k : Nat} (h : s.pc + k < 256) : operandByte k s = s.mem.read (s.pc + k) := by
  simp [operandByte, fetchOperand_of_lt h]

/-- All that a step can do: on a stopped machine a fault; above 255 the fetch's error; else the instruction, or the
error, that the fetched bytes stand for. -/
theorem step_cases {r : Host.Outcome State Fault Refusal} (h : step s = r) :
    (s.run = .halted ∧ r = .fault .halted) ∨
    (∃ e, s.run = .faulted e ∧ r = .fault (.faulted e)) ∨
    (s.run = .running ∧ 256 ≤ s.pc ∧ r = .next (s.setRun (.faulted (.memoryOutOfBounds s.pc)))) ∨
    (s.run = .running ∧ s.pc < 256 ∧ ∃ f, f = s.setIr (s.mem.read s.pc) ∧
      ((∃ i, decodeFetched f = .ok i ∧ r = exec i f) ∨
       (∃ op, decodeFetched f = .error (.unsupportedALU op) ∧ r = rejectAlu op f) ∨
       (∃ op, decodeFetched f = .error (.unknownOpcode op) ∧ r = rejectUnknown op f))) := by
  unfold step at h
  split at h
  · rename_i hrun
    refine .inr (.inr ?_)
    unfold cycle at h
    split at h
    · rename_i f hf
      obtain ⟨hpc, rfl⟩ := fetch_ok.1 hf
      refine .inr ⟨hrun, hpc, _, rfl, ?_⟩
      unfold execute at h
      split at h
      · exact .inl ⟨_, by assumption, h.symm⟩
      · exact .inr (.inl ⟨_, by assumption, h.symm⟩)
      · exact .inr (.inr ⟨_, by assumption, h.symm⟩)
    · rename_i e hf
      obtain ⟨hpc, rfl⟩ := fetch_error.1 hf
      exact .inl ⟨hrun, hpc, h.symm⟩
  · exact .inl ⟨by assumption, h.symm⟩
  · exact .inr (.inl ⟨_, by assumption, h.symm⟩)

end Sys2Proof.Machine
end

