-- ==== Sys2Proof/Laws/Exec.lean ====
section
/-! SUPPORT. What an instruction can do, said once: it completes, in the one way `Completed` lists for it, or it records an
error and keeps no effect. Frames and invariants are read off this, without unfolding a meaning again. -/

namespace Sys2Proof.Machine

/-- The state an instruction leaves where it completes, and the conditions it completes under. -/
def Completed (i : Instr) (s t : State) : Prop :=
  match i with
  | .hlt => t = s.setRun .halted
  | .ret => sp s ≠ 0xFF#8 ∧ t = (setSp (lowByte ((sp s).toNat + 1)) s).setPc (s.mem.read (stackTop s)).toNat
  | .push r =>
    s.pc + 1 < 256 ∧ ∃ s1, decSp s = .ok s1 ∧ ∃ h : r.toNat < 8,
      t = (s1.setMem (s1.mem.write (stackTop s1) s1.regs[r.toNat])).setPc (s.pc + 2)
  | .pop r =>
    s.pc + 1 < 256 ∧ ∃ (h : r.toNat < 8) (s2 : State),
      incSp (s.setRegs (s.regs.set r.toNat (s.mem.read (stackTop s)) h)) = .ok s2 ∧ t = s2.setPc (s.pc + 2)
  | .prn r => s.pc + 1 < 256 ∧ ∃ h : r.toNat < 8, t = (s.emit s.regs[r.toNat]).setPc (s.pc + 2)
  | .call r =>
    s.pc < 254 ∧ ∃ s1, decSp s = .ok s1 ∧ ∃ h : r.toNat < 8,
      t = (s1.setMem (s1.mem.write (stackTop s1) (lowByte (s.pc + 2)))).setPc (s1.regs[r.toNat]).toNat
  | .jmp r => s.pc + 1 < 256 ∧ ∃ h : r.toNat < 8, t = s.setPc (s.regs[r.toNat]).toNat
  | .jeq r =>
    (flagE s.fl = true ∧ s.pc + 1 < 256 ∧ ∃ h : r.toNat < 8, t = s.setPc (s.regs[r.toNat]).toNat) ∨
    (flagE s.fl = false ∧ t = s.setPc (s.pc + 2))
  | .jne r =>
    (flagE s.fl = false ∧ s.pc + 1 < 256 ∧ ∃ h : r.toNat < 8, t = s.setPc (s.regs[r.toNat]).toNat) ∨
    (flagE s.fl = true ∧ t = s.setPc (s.pc + 2))
  | .ldi r imm => s.pc + 2 < 256 ∧ ∃ h : r.toNat < 8, t = (s.setRegs (s.regs.set r.toNat imm h)).setPc (s.pc + 3)
  | .add a b =>
    s.pc + 2 < 256 ∧ ∃ (ha : a.toNat < 8) (_ : b.toNat < 8),
      t = (s.setRegs (s.regs.set a.toNat (lowByte ((s.regs[a.toNat]).toNat + (s.regs[b.toNat]).toNat)) ha)).setPc (s.pc + 3)
  | .mul a b =>
    s.pc + 2 < 256 ∧ ∃ (ha : a.toNat < 8) (_ : b.toNat < 8),
      t = (s.setRegs (s.regs.set a.toNat (lowByte ((s.regs[a.toNat]).toNat * (s.regs[b.toNat]).toNat)) ha)).setPc (s.pc + 3)
  | .cmp a b =>
    s.pc + 2 < 256 ∧ ∃ (_ : a.toNat < 8) (_ : b.toNat < 8),
      t = (s.setFl (compareFlags s.regs[a.toNat] s.regs[b.toNat])).setPc (s.pc + 3)

/-- Every instruction answers a next state: it completes as `Completed` says, or it records an error. -/
theorem exec_cases {i : Instr} {s : State} {r : Host.Outcome State Fault Refusal} (h : exec i s = r) :
    (∃ t, r = .next t ∧ Completed i s t) ∨ ∃ e, r = .next (s.setRun (.faulted e)) := by
  have key : ∀ body, commit s body = r → (∀ t, body = .ok t → Completed i s t) →
      (∃ t, r = .next t ∧ Completed i s t) ∨ ∃ e, r = .next (s.setRun (.faulted e)) := by
    intro body hb hc
    rcases commit_cases hb with ⟨t, ht, hr⟩ | ⟨e, _, hr⟩
    · exact .inl ⟨t, hr, hc t ht⟩
    · exact .inr ⟨e, hr⟩
  cases i with
  | hlt => exact .inl ⟨_, h.symm, rfl⟩
  | ret =>
    refine key _ h fun t ht => ?_
    simp only [bind_ok, memRead_ok, incSp_ok] at ht
    obtain ⟨_, ⟨_, rfl⟩, _, ⟨hne, rfl⟩, ht⟩ := ht
    cases ht
    exact ⟨hne, rfl⟩
  | push rs =>
    refine key _ h fun t ht => ?_
    simp only [bind_ok, fetchOperand_ok, regValue, readReg_ok, memWrite_ok] at ht
    obtain ⟨_, ⟨hp, _⟩, s1, h1, _, ⟨hr, rfl⟩, _, ⟨_, rfl⟩, ht⟩ := ht
    obtain ⟨_, rfl⟩ := decSp_ok.1 h1
    cases ht
    exact ⟨hp, _, h1, hr, by simp [defaultAdvance]⟩
  | pop rd =>
    refine key _ h fun t ht => ?_
    simp only [bind_ok, fetchOperand_ok, memRead_ok, setRegValue, writeReg_ok] at ht
    obtain ⟨_, ⟨hp, _⟩, _, ⟨_, rfl⟩, _, ⟨hr, rfl⟩, s2, h2, ht⟩ := ht
    obtain ⟨_, rfl⟩ := incSp_ok.1 h2
    cases ht
    exact ⟨hp, hr, _, h2, by simp [defaultAdvance]⟩
  | prn rs =>
    refine key _ h fun t ht => ?_
    simp only [bind_ok, fetchOperand_ok, regValue, readReg_ok] at ht
    obtain ⟨_, ⟨hp, _⟩, _, ⟨hr, rfl⟩, ht⟩ := ht
    cases ht
    exact ⟨hp, hr, by simp [defaultAdvance]⟩
  | call rt =>
    refine key _ h fun t ht => ?_
    simp only [bind_ok, fetchOperand_ok, returnAddress_ok, memWrite_ok, jumpTo_ok] at ht
    obtain ⟨_, _, s1, h1, _, ⟨hp, rfl⟩, _, ⟨_, rfl⟩, hr, rfl⟩ := ht
    obtain ⟨_, rfl⟩ := decSp_ok.1 h1
    exact ⟨hp, _, h1, hr, rfl⟩
  | jmp rt =>
    refine key _ h fun t ht => ?_
    simp only [bind_ok, fetchOperand_ok, jumpTo_ok] at ht
    obtain ⟨_, ⟨hp, _⟩, hr, rfl⟩ := ht
    exact ⟨hp, hr, rfl⟩
  | jeq rt =>
    refine key _ h fun t ht => ?_
    split at ht
    · simp only [bind_ok, fetchOperand_ok, jumpTo_ok] at ht
      obtain ⟨_, ⟨hp, _⟩, hr, rfl⟩ := ht
      exact .inl ⟨by assumption, hp, hr, rfl⟩
    · cases ht
      exact .inr ⟨by simp_all, rfl⟩
  | jne rt =>
    refine key _ h fun t ht => ?_
    split at ht
    · cases ht
      exact .inr ⟨by assumption, rfl⟩
    · simp only [bind_ok, fetchOperand_ok, jumpTo_ok] at ht
      obtain ⟨_, ⟨hp, _⟩, hr, rfl⟩ := ht
      exact .inl ⟨by simp_all, hp, hr, rfl⟩
  | ldi rd imm =>
    refine key _ h fun t ht => ?_
    simp only [bind_ok, fetchOperand_ok, setRegValue, writeReg_ok] at ht
    obtain ⟨_, _, _, ⟨hp, _⟩, _, ⟨hr, rfl⟩, ht⟩ := ht
    cases ht
    exact ⟨hp, hr, by simp [defaultAdvance, immediate]⟩
  | add ra rb =>
    refine key _ h fun t ht => ?_
    simp only [bind_ok, aluOperands_ok, regValue, readReg_ok, setRegValue, writeReg_ok] at ht
    obtain ⟨_, hp, _, ⟨_, rfl⟩, _, ⟨hb, rfl⟩, _, ⟨ha, rfl⟩, ht⟩ := ht
    cases ht
    exact ⟨hp, ha, hb, by simp [defaultAdvance]⟩
  | mul ra rb =>
    refine key _ h fun t ht => ?_
    simp only [bind_ok, aluOperands_ok, regValue, readReg_ok, setRegValue, writeReg_ok] at ht
    obtain ⟨_, hp, _, ⟨_, rfl⟩, _, ⟨hb, rfl⟩, _, ⟨ha, rfl⟩, ht⟩ := ht
    cases ht
    exact ⟨hp, ha, hb, by simp [defaultAdvance]⟩
  | cmp ra rb =>
    refine key _ h fun t ht => ?_
    simp only [bind_ok, aluOperands_ok, regValue, readReg_ok] at ht
    obtain ⟨_, hp, _, ⟨ha, rfl⟩, _, ⟨hb, rfl⟩, ht⟩ := ht
    cases ht
    exact ⟨hp, ha, hb, by simp [defaultAdvance]⟩

end Sys2Proof.Machine
end

