-- ==== Sys2Proof/Laws/PerInstr.lean ====
section
/-! SUPPORT. One law for every instruction, as the syntax of its encoding: its length is told by its opcode byte
(30_encoding.md R63), and bits 7 to 4 of that byte are the ones the spec's source forces (R69). -/

namespace Sys2Proof.Laws.EncodingForm

/-- Bits 7 to 4 of the opcode byte, as the table of 30_encoding.md R69 forces them; HLT's are not forced. -/
def forcedNibble : Instr → Option (BitVec 4)
  | .hlt => none
  | .ret => some 0b0001#4
  | .push _ => some 0b0100#4
  | .pop _ => some 0b0100#4
  | .prn _ => some 0b0100#4
  | .call _ => some 0b0101#4
  | .jmp _ => some 0b0101#4
  | .jeq _ => some 0b0101#4
  | .jne _ => some 0b0101#4
  | .ldi _ _ => some 0b1000#4
  | .add _ _ => some 0b1010#4
  | .mul _ _ => some 0b1010#4
  | .cmp _ _ => some 0b1010#4

/-- The encoding is `1 + operand_count` bytes long, it begins with the opcode byte, and that byte has the forced bits. -/
def Statement (i : Instr) : Prop :=
  (encode i).length = 1 + operandCount (opcodeOf i) ∧
  (encode i).head? = some (opcodeOf i) ∧
  ∀ n, forcedNibble i = some n → (opcodeOf i).extractLsb' 4 4 = n

theorem hlt : Statement .hlt :=
  ⟨by simp [encode, operandsOf, opcodeOf], rfl, by simp [forcedNibble, opcodeOf, opHLT]⟩
theorem ret : Statement .ret :=
  ⟨by simp [encode, operandsOf, opcodeOf], rfl, by simp [forcedNibble, opcodeOf, opRET]⟩
theorem push (rs : Byte) : Statement (.push rs) :=
  ⟨by simp [encode, operandsOf, opcodeOf], rfl, by simp [forcedNibble, opcodeOf, opPUSH]⟩
theorem pop (rd : Byte) : Statement (.pop rd) :=
  ⟨by simp [encode, operandsOf, opcodeOf], rfl, by simp [forcedNibble, opcodeOf, opPOP]⟩
theorem prn (rs : Byte) : Statement (.prn rs) :=
  ⟨by simp [encode, operandsOf, opcodeOf], rfl, by simp [forcedNibble, opcodeOf, opPRN]⟩
theorem call (rt : Byte) : Statement (.call rt) :=
  ⟨by simp [encode, operandsOf, opcodeOf], rfl, by simp [forcedNibble, opcodeOf, opCALL]⟩
theorem jmp (rt : Byte) : Statement (.jmp rt) :=
  ⟨by simp [encode, operandsOf, opcodeOf], rfl, by simp [forcedNibble, opcodeOf, opJMP]⟩
theorem jeq (rt : Byte) : Statement (.jeq rt) :=
  ⟨by simp [encode, operandsOf, opcodeOf], rfl, by simp [forcedNibble, opcodeOf, opJEQ]⟩
theorem jne (rt : Byte) : Statement (.jne rt) :=
  ⟨by simp [encode, operandsOf, opcodeOf], rfl, by simp [forcedNibble, opcodeOf, opJNE]⟩
theorem ldi (rd imm : Byte) : Statement (.ldi rd imm) :=
  ⟨by simp [encode, operandsOf, opcodeOf], rfl, by simp [forcedNibble, opcodeOf, opLDI]⟩
theorem add (ra rb : Byte) : Statement (.add ra rb) :=
  ⟨by simp [encode, operandsOf, opcodeOf], rfl, by simp [forcedNibble, opcodeOf, opADD]⟩
theorem mul (ra rb : Byte) : Statement (.mul ra rb) :=
  ⟨by simp [encode, operandsOf, opcodeOf], rfl, by simp [forcedNibble, opcodeOf, opMUL]⟩
theorem cmp (ra rb : Byte) : Statement (.cmp ra rb) :=
  ⟨by simp [encode, operandsOf, opcodeOf], rfl, by simp [forcedNibble, opcodeOf, opCMP]⟩

end Sys2Proof.Laws.EncodingForm
end

