-- ==== Sys2Proof/Certificates/Slice0/Obligations.lean ====
section
/-! DEFINITION. The statements about the LS-8 core. Each docstring names the rule of spec/ it formalises. Where a clause
rests on one of the spec's own decisions D<n> (92_eei_decisions.md), which are not sentences of its source, or on a choice
of this model, the docstring says so and names the log entry. -/

open Sys2Proof Sys2Proof.Machine

/-! ## Encoding -/

/-- Decoding an encoded instruction gives it back, well-formed or not, whatever bytes follow: from a list, and from the
three bytes the machine hands its decoder (30_encoding.md R60 to R63, with the opcode values of D1, log 1). -/
def Obligations.DecodeOfEncode : Prop :=
  (∀ (i : Instr) (rest : List Byte), decodeList (encode i ++ rest) = .ok (i, rest)) ∧
  ∀ (i : Instr) (b1 b2 : Byte), operandsOf i <+: [b1, b2] → decode (opcodeOf i) b1 b2 = .ok i

/-- Each word has one meaning: what decodes encodes back to its own opcode byte and as many of the bytes after it as
`operand_count` says (30_encoding.md R61, R63, D1, log 1). -/
def Obligations.EncodeOfDecode : Prop :=
  ∀ (op b1 b2 : Byte) (i : Instr), decode op b1 b2 = .ok i → encode i = [op, b1, b2].take (1 + operandCount op)

/-- The illegal opcodes, by name: those of 30_encoding.md R71 with bit 5 set, those of R72 with bit 5 clear, and no others
(the byte values are D1, log 1). -/
def Obligations.IllegalOpcodesByName : Prop :=
  ∀ op b1 b2 : Byte,
    (decode op b1 b2 = .error (.unsupportedALU op) ↔
      op[5] = true ∧ op ≠ 0xA0#8 ∧ op ≠ 0xA2#8 ∧ op ≠ 0xA7#8) ∧
    (decode op b1 b2 = .error (.unknownOpcode op) ↔
      op[5] = false ∧ op ≠ 0x01#8 ∧ op ≠ 0x11#8 ∧ op ≠ 0x45#8 ∧ op ≠ 0x46#8 ∧ op ≠ 0x47#8 ∧ op ≠ 0x50#8 ∧
        op ≠ 0x54#8 ∧ op ≠ 0x55#8 ∧ op ≠ 0x56#8 ∧ op ≠ 0x82#8) ∧
    ∀ e, decode op b1 b2 = .error e → e = .unsupportedALU op ∨ e = .unknownOpcode op

/-- Of the 256 opcode bytes 13 are legal, 125 are unsupported ALU operations and 118 are unknown (30_encoding.md R73, a
count the spec marks as derived). -/
def Obligations.OpcodeCounts : Prop :=
  let outcomes := (List.range 256).map fun n => decode (BitVec.ofNat 8 n) 0x00#8 0x00#8
  (outcomes.filter fun r => match r with | .ok _ => true | .error _ => false).length = 13 ∧
  (outcomes.filter fun r => match r with | .error (.unsupportedALU _) => true | _ => false).length = 125 ∧
  (outcomes.filter fun r => match r with | .error (.unknownOpcode _) => true | _ => false).length = 118

/-- The thirteen words of the table of 30_encoding.md R68, written out bit by bit, decode to the instructions they stand
for, with each operand byte in its place (R62; the byte values are D1, log 1). -/
def Obligations.WordsWrittenOut : Prop :=
  ∀ a b : Byte,
    decode 0b00000001#8 a b = .ok .hlt ∧ decode 0b00010001#8 a b = .ok .ret ∧
    decode 0b01000101#8 a b = .ok (.push a) ∧ decode 0b01000110#8 a b = .ok (.pop a) ∧
    decode 0b01000111#8 a b = .ok (.prn a) ∧ decode 0b01010000#8 a b = .ok (.call a) ∧
    decode 0b01010100#8 a b = .ok (.jmp a) ∧ decode 0b01010101#8 a b = .ok (.jeq a) ∧
    decode 0b01010110#8 a b = .ok (.jne a) ∧ decode 0b10000010#8 a b = .ok (.ldi a b) ∧
    decode 0b10100000#8 a b = .ok (.add a b) ∧ decode 0b10100010#8 a b = .ok (.mul a b) ∧
    decode 0b10100111#8 a b = .ok (.cmp a b)

/-! ## The step -/

/-- A step runs the decoded instruction: where the opcode byte at PC and the two bytes after it decode to i, the step of a
RUNNING machine is i's meaning on the same state with IR holding the opcode byte; exec itself moves PC
(40_execution_cycle.md R80 to R85). -/
def Obligations.StepRunsDecodedInstruction : Prop :=
  ∀ (s : State) (i : Instr), s.run = .running → s.pc ≤ 253 →
    decode (s.mem.read s.pc) (s.mem.read (s.pc + 1)) (s.mem.read (s.pc + 2)) = .ok i →
    step s = exec i { s with ir := s.mem.read s.pc }

/-- At the top of memory, where an operand byte has no cell, the step is still the instruction's meaning, WHATEVER byte
stands for the missing one (the filler is this model's choice, log 15; 40_execution_cycle.md R85, 44_control_transfer.md
R135). -/
def Obligations.AbsentOperandBytesAreNeverUsed : Prop :=
  ∀ (s : State) (i : Instr) (b1 b2 : Byte), s.run = .running → s.pc = 254 ∨ s.pc = 255 →
    (s.pc = 254 → b1 = s.mem.read 255) → decode (s.mem.read s.pc) b1 b2 = .ok i →
    step s = exec i { s with ir := s.mem.read s.pc }

/-- Where the bytes of an instruction stand at PC, the step is its meaning, with its opcode byte in IR
(40_execution_cycle.md R80, 30_encoding.md R60). -/
def Obligations.StepRunsEncodedInstruction : Prop :=
  ∀ (s : State) (i : Instr), s.run = .running → HoldsAt s s.pc (encode i) →
    step s = exec i { s with ir := opcodeOf i }

/-- A fetch above 255 raises MemoryOutOfBounds(pc) and leaves IR unchanged (40_execution_cycle.md R81, D3, D5, D9; log 4,
log 8). -/
def Obligations.FetchAboveMemoryFaults : Prop :=
  ∀ s : State, s.run = .running → 255 < s.pc →
    step s = .next { s with run := .faulted (.memoryOutOfBounds s.pc) }

/-- 40_execution_cycle.md R82: the whole byte at PC is compared with `OP_HLT` before any field is looked at; if equal the
machine is HALTED with PC where it was, and it becomes HALTED in no other way. -/
def Obligations.HaltTestComesFirst : Prop :=
  ∀ s : State, s.run = .running → s.pc ≤ 255 →
    (s.mem.read s.pc = opHLT → step s = .next { s with ir := opHLT, run := .halted }) ∧
    ∀ t, step s = .next t → t.run = .halted → s.mem.read s.pc = opHLT

/-- An opcode with bit 5 clear that is not HLT and has no dispatch-table entry raises UnknownOpcode at any address, 255 too:
no operand byte is read first (40_execution_cycle.md R86). That everything but the run state and IR is left as it was is the
spec's own decision (D9; log 8). -/
def Obligations.UnknownOpcodeFaults : Prop :=
  ∀ (s : State) (op : Byte), s.run = .running → s.pc ≤ 255 → s.mem.read s.pc = op →
    op[5] = false → op ≠ opHLT → (∀ h, (op, h) ∉ dispatchTable) →
    step s = .next { s with ir := op, run := .faulted (.unknownOpcode op) }

/-- An opcode with bit 5 set other than ADD, MUL, CMP: the two operand reads first, then UnsupportedALUOperation, whatever
the operand bytes and the `operand_count` field are (41_alu.md R105, 40_execution_cycle.md R84, D3, D9, D10; log 8, log
9). -/
def Obligations.UnsupportedAluFaults : Prop :=
  ∀ (s : State) (op : Byte), s.run = .running → s.pc ≤ 255 → s.mem.read s.pc = op →
    op[5] = true → op ≠ opADD → op ≠ opMUL → op ≠ opCMP →
    step s = .next { s with
      ir := op
      run := .faulted (if s.pc ≤ 253 then .unsupportedALUOperation op else .memoryOutOfBounds 256) }

/-- While RUNNING the machine always has a step; from HALTED and FAULTED it has none (93_implementation_defined.md, the end
of part 1; 10_state.md R26, D9, D21; log 8). -/
def Obligations.StepIsTotalWhileRunning : Prop :=
  ∀ s : State,
    (s.run = .running → ∃ t, step s = .next t) ∧
    (s.run = .halted → step s = .fault .halted) ∧
    (∀ e, s.run = .faulted e → step s = .fault (.faulted e))

/-! ## Reset, load and the invariant -/

/-- What reset leaves (70_reset_and_hazards.md R180): PC 0 and RUNNING are the source's; R7 = 0xF4, the zeros of R0 to R6,
of FL, of IR and of memory are the spec's decisions D8 and D24 (log 2). -/
def Obligations.ResetState : Prop :=
  State.reset.pc = 0 ∧ State.reset.run = .running ∧ State.reset.output = [] ∧
  State.reset.regs[7] = 0xF4#8 ∧ (∀ (k : Nat) (h : k < 7), State.reset.regs[k] = 0x00#8) ∧
  State.reset.fl = 0x00#8 ∧ State.reset.ir = 0x00#8 ∧ ∀ a, State.reset.mem.read a = 0x00#8

/-- The load puts an image of at most 256 bytes at address 0, with every other cell 0 and all else at reset, and refuses a
longer one (70_reset_and_hazards.md R184, R180, D8, D13; log 2, log 12). -/
def Obligations.LoadPlacesImage : Prop :=
  ∀ image : List Byte,
    (image.length ≤ 256 → ∃ s, loadImage image = .next s ∧
      (∀ (k : Nat) (h : k < image.length), s.mem.read k = image[k]) ∧
      (∀ a, image.length ≤ a → s.mem.read a = 0x00#8) ∧
      s = { State.reset with mem := s.mem }) ∧
    (256 < image.length → loadImage image = .refused (.imageTooLong image.length))

/-- 70_reset_and_hazards.md R181: the entry point is address 0; the first step fetches `Memory[0]`. -/
def Obligations.EntryPointIsAddressZero : Prop :=
  ∀ (image : List Byte) (s t : State), loadImage image = .next s → step s = .next t → t.ir = s.mem.read 0

/-- The empty image: the first step fetches 0x00 and raises UnknownOpcode (70_reset_and_hazards.md R188, which the spec
derives from D8; log 2). -/
def Obligations.EmptyImageFaults : Prop :=
  loadImage [] = .next State.reset ∧
  step State.reset = .next { State.reset with run := .faulted (.unknownOpcode 0x00#8) }

/-- Every step keeps the invariant: canonical memory, PC in 0 to 257, FL one of 0, 1, 2, 4, and a run state that agrees with
IR, PC and memory and carries a legal info value (10_state.md R19, R23, R24; 60_exceptions.md R150; D4 to D9). The
canonical form is this model's (log 17). -/
def Obligations.StepKeepsInvariant : Prop :=
  ∀ s t : State, Inv s → step s = .next t → Inv t

/-- The reset state meets the invariant (70_reset_and_hazards.md R180; D8, log 2). -/
def Obligations.ResetMeetsInvariant : Prop := Inv State.reset

/-- Every state of a run from any loaded image meets the invariant (70_reset_and_hazards.md R184, 40_execution_cycle.md
R89). -/
def Obligations.InvariantAlongEveryRun : Prop :=
  ∀ (image : List Byte) (s : State) (n : Nat), loadImage image = .next s → Inv (runFor n s)

/-! ## Whole-machine rules -/

/-- 10_state.md R21: only CMP writes FL, and it overwrites it whole with 0b100, 0b010 or 0b001; every other instruction
leaves it; no instruction stores it: registers, memory and output after an instruction do not depend on it. -/
def Obligations.OnlyCmpWritesFl : Prop :=
  (∀ (i : Instr) (s t : State), exec i s = .next t →
    t.fl = s.fl ∨ ((∃ a b, i = .cmp a b) ∧ (t.fl = 0b100#8 ∨ t.fl = 0b010#8 ∨ t.fl = 0b001#8))) ∧
  (∀ (a b : Byte) (s t : State), s.run = .running → exec (.cmp a b) s = .next t → t.run = .running →
    (t.fl = 0b100#8 ∨ t.fl = 0b010#8 ∨ t.fl = 0b001#8) ∧
    ∀ f : Byte, exec (.cmp a b) { s with fl := f } = .next t) ∧
  (∀ s t : State, step s = .next t → t.fl ≠ s.fl → t.ir = opCMP) ∧
  ∀ (i : Instr) (s t : State) (f : Byte), exec i s = .next t →
    ∃ t', exec i { s with fl := f } = .next t' ∧ t'.regs = t.regs ∧ t'.mem = t.mem ∧ t'.output = t.output

/-- 10_state.md R22: only JEQ and JNE read FL, and only bit 0. Any other instruction does the same to everything but FL,
whatever FL holds; JEQ and JNE do the same for any two values of FL with the same bit 0. -/
def Obligations.OnlyEqualBitIsRead : Prop :=
  ∀ (i : Instr) (s t : State) (f : Byte), exec i s = .next t →
    ((∀ r, i ≠ .jeq r ∧ i ≠ .jne r) ∨ f[0] = s.fl[0]) →
    ∃ t', exec i { s with fl := f } = .next t' ∧ { t' with fl := t.fl } = t ∧
      (t'.fl = f ∨ (t'.fl = t.fl ∧ ∃ a b, i = .cmp a b))

/-- 40_execution_cycle.md R87: if the sets-PC flag of the opcode byte fetched by this step is clear, a step that goes on
advances PC by `1 + operand_count` of that byte, as it stood in memory before the step. -/
def Obligations.DefaultAdvanceOfStep : Prop :=
  ∀ s t : State, s.run = .running → step s = .next t → t.run = .running →
    t.ir = s.mem.read s.pc ∧
    ((s.mem.read s.pc)[4] = false →
      t.pc = s.pc + 1 + ((s.mem.read s.pc).extractLsb' 6 2).toNat)

/-- 10_state.md R17: an instruction with the sets-PC flag clear advances PC by `1 + operand_count`: LDI, ADD, MUL, CMP by 3,
PRN, PUSH, POP by 2; HLT does not advance at all. -/
def Obligations.DefaultAdvancePerInstruction : Prop :=
  (∀ (i : Instr) (s t : State), s.run = .running → exec i s = .next t → t.run = .running →
    setsPc (opcodeOf i) = false →
    t.pc = s.pc + 1 + operandCount (opcodeOf i) ∧
    (∀ a b, (i = .ldi a b ∨ i = .add a b ∨ i = .mul a b ∨ i = .cmp a b) → t.pc = s.pc + 3) ∧
    (∀ r, (i = .prn r ∨ i = .push r ∨ i = .pop r) → t.pc = s.pc + 2)) ∧
  (∀ a b : Byte, setsPc (opcodeOf (.ldi a b)) = false ∧ setsPc (opcodeOf (.add a b)) = false ∧
    setsPc (opcodeOf (.mul a b)) = false ∧ setsPc (opcodeOf (.cmp a b)) = false ∧
    setsPc (opcodeOf (.prn a)) = false ∧ setsPc (opcodeOf (.push a)) = false ∧ setsPc (opcodeOf (.pop a)) = false) ∧
  ∀ s t : State, exec .hlt s = .next t → t.pc = s.pc

/-- With the sets-PC flag set there is no default advance: CALL, JMP and a taken JEQ or JNE write a register's value, RET a
memory byte, a JEQ or JNE that is not taken `pc + 2`; HLT and a fatal error leave PC (10_state.md R18). That a fatal error
leaves PC, and that a completed transfer has an index below 8, are the spec's own decisions (D9, D7; log 8, log 7). -/
def Obligations.TransfersSetPc : Prop :=
  ∀ (i : Instr) (s t : State), s.run = .running → exec i s = .next t →
    (t.run = .running →
      (∀ r : Byte, (i = .call r ∨ i = .jmp r ∨ (i = .jeq r ∧ s.fl[0] = true) ∨
          (i = .jne r ∧ s.fl[0] = false)) →
        ∃ h : r.toNat < 8, t.pc = (t.regs[r.toNat]).toNat) ∧
      (i = .ret → t.pc = (s.mem.read (s.regs[7]).toNat).toNat) ∧
      (∀ r : Byte, ((i = .jeq r ∧ s.fl[0] = false) ∨ (i = .jne r ∧ s.fl[0] = true)) →
        t.pc = s.pc + 2)) ∧
    (t.run = .halted → t.pc = s.pc) ∧
    ∀ e, t.run = .faulted e → t.pc = s.pc

/-- The frame of the register file: every register but the instruction's destinations (the table of 10_state.md R11: the
named register of LDI, ADD, MUL, POP; R7 for PUSH, POP, CALL, RET; none for the rest) keeps its value. IR keeps its value
under every instruction: the fetch alone writes it (10_state.md R24). -/
def Obligations.RegisterFrame : Prop :=
  ∀ (i : Instr) (s t : State), exec i s = .next t →
    (∀ (k : Nat) (h : k < 8), k ∉ destinations i → t.regs[k] = s.regs[k]) ∧ t.ir = s.ir

/-- The frame of memory: every cell but the one PUSH and CALL store to, where SP points after the decrement, reads as
before; an instruction that stores nothing leaves memory as it is (the table of 20_memory.md R42). -/
def Obligations.MemoryFrame : Prop :=
  ∀ (i : Instr) (s t : State), exec i s = .next t →
    (∀ a : Nat, storedAddress i s ≠ some a → t.mem.read a = s.mem.read a) ∧
    (storedAddress i s = none → t.mem = s.mem)

/-- The cell PUSH or CALL stored to reads back as the byte stored: the source register's value after the decrement, or the
address of the instruction after CALL (43_stack.md R121, 44_control_transfer.md R131; canonical memory is this model's
form, log 17). -/
def Obligations.StoredByteReadsBack : Prop :=
  ∀ (s t : State) (r : Byte) (a : Nat), s.mem.wf = true → s.run = .running → t.run = .running →
    (exec (.push r) s = .next t → storedAddress (.push r) s = some a →
      ∃ h : r.toNat < 8, t.mem.read a = t.regs[r.toNat]) ∧
    (exec (.call r) s = .next t → storedAddress (.call r) s = some a →
      (t.mem.read a).toNat = s.pc + 2)

/-- The frame of the output channel: only PRN appends to it, one value, its register's (10_state.md R30, D12; log 11). -/
def Obligations.OutputFrame : Prop :=
  ∀ (i : Instr) (s t : State), exec i s = .next t →
    t.output = s.output ∨ ∃ (r : Byte) (h : r.toNat < 8), i = .prn r ∧ t.output = s.output ++ [s.regs[r.toNat]]

/-- What has been output is never taken back, in a run of any length, through a fault or a halt (10_state.md R30,
60_exceptions.md R159; D9, D12). -/
def Obligations.OutputIsAppendOnly : Prop :=
  ∀ (n : Nat) (s : State), s.output <+: (runFor n s).output

/-- Errors are precise: the step that raises one changes the run state and IR alone, and IR only if the fetch succeeded
(60_exceptions.md R159, D9; log 8). -/
def Obligations.FatalErrorsArePrecise : Prop :=
  (∀ (i : Instr) (s t : State) (e : FatalError), s.run = .running → exec i s = .next t → t.run = .faulted e →
    t = { s with run := .faulted e }) ∧
  ∀ (s t : State) (e : FatalError), step s = .next t → t.run = .faulted e →
    t = { s with ir := if s.pc ≤ 255 then s.mem.read s.pc else s.ir, run := .faulted e }

/-- Each instruction raises the first error of its rule's list whose condition holds, with nothing else changed; where none
holds it completes (60_exceptions.md R151, R154, R158; D3 to D10; log 4 to log 10). -/
def Obligations.RaisesFirstError : Prop :=
  ∀ (i : Instr) (s : State),
    (∀ e, firstError i s = some e → exec i s = .next { s with run := .faulted e }) ∧
    (firstError i s = none → ∃ t, exec i s = .next t ∧ (t.run = s.run ∨ (i = .hlt ∧ t.run = .halted)))

/-- No instruction reads IR as data (10_state.md R24, R27). -/
def Obligations.IrIsNotReadAsData : Prop :=
  ∀ (i : Instr) (s t : State) (x : Byte), exec i s = .next t →
    exec i { s with ir := x } = .next { t with ir := x }

/-- The ALU instructions read no memory and write none, and beyond their operand bytes only POP and RET read a memory byte:
any other instruction does the same to everything but memory, whatever memory holds (41_alu.md R100; the table of
20_memory.md R42). -/
def Obligations.OnlyPopAndRetReadMemoryData : Prop :=
  ∀ (i : Instr) (s t : State) (m : Memory), exec i s = .next t →
    ((∀ a b : Byte, (i = .add a b ∨ i = .mul a b ∨ i = .cmp a b) → exec i { s with mem := m } = .next { t with mem := m }) ∧
     ((∀ r, i ≠ .pop r) → i ≠ .ret → ∃ m', exec i { s with mem := m } = .next { t with mem := m' }))

/-! ## The instructions, where they complete -/

/-- HLT completes in every state: HALTED, and nothing else (40_execution_cycle.md R88). -/
def Obligations.HltHalts : Prop :=
  ∀ s : State, exec .hlt s = .next { s with run := .halted }

/-- ADD Ra,Rb: the sum modulo 256 in Ra, PC + 3, nothing else: no flag, no other register, no memory (41_alu.md section 2,
ADD; the wraparound is conflict C2 and decision D2, log 3). -/
def Obligations.AddWrapsModulo256 : Prop :=
  ∀ (a b : Byte) (s : State) (ha : a.toNat < 8) (hb : b.toNat < 8), s.pc ≤ 253 →
    exec (.add a b) s = .next { s with
      regs := s.regs.set a.toNat (BitVec.ofNat 8 (((s.regs[a.toNat]).toNat + (s.regs[b.toNat]).toNat) % 256)) ha
      pc := s.pc + 3 }

/-- MUL Ra,Rb: the low byte of the exact product in Ra, PC + 3, nothing else (41_alu.md section 2, MUL; C2, D2, log 3). -/
def Obligations.MulKeepsLowByte : Prop :=
  ∀ (a b : Byte) (s : State) (ha : a.toNat < 8) (hb : b.toNat < 8), s.pc ≤ 253 →
    exec (.mul a b) s = .next { s with
      regs := s.regs.set a.toNat (BitVec.ofNat 8 (((s.regs[a.toNat]).toNat * (s.regs[b.toNat]).toNat) % 256)) ha
      pc := s.pc + 3 }

/-- CMP Ra,Rb: FL is 0b100, 0b010 or 0b001 as x[a] is less than, greater than or equal to x[b] as unsigned integers, the old
FL is gone, PC + 3, nothing else (41_alu.md section 2, CMP). -/
def Obligations.CmpSetsOneFlag : Prop :=
  ∀ (a b : Byte) (s : State) (_ : a.toNat < 8) (_ : b.toNat < 8), s.pc ≤ 253 →
    ∃ t, exec (.cmp a b) s = .next t ∧ t = { s with fl := t.fl, pc := s.pc + 3 } ∧
      (t.fl = 0b100#8 ↔ (s.regs[a.toNat]).toNat < (s.regs[b.toNat]).toNat) ∧
      (t.fl = 0b010#8 ↔ (s.regs[b.toNat]).toNat < (s.regs[a.toNat]).toNat) ∧
      (t.fl = 0b001#8 ↔ s.regs[a.toNat] = s.regs[b.toNat])

/-- LDI Rd,imm: the immediate byte as it stands in Rd, PC + 3, nothing else (42_load_and_output.md, LDI; 30_encoding.md
R66). -/
def Obligations.LdiLoadsImmediate : Prop :=
  ∀ (d imm : Byte) (s : State) (hd : d.toNat < 8), s.pc ≤ 253 →
    exec (.ldi d imm) s = .next { s with regs := s.regs.set d.toNat imm hd, pc := s.pc + 3 }

/-- PRN Rs: the register's value is appended to the output channel, PC + 2 (256 too), nothing else (42_load_and_output.md,
PRN; D5, D12, log 4, log 11). -/
def Obligations.PrnEmitsRegister : Prop :=
  ∀ (r : Byte) (s : State) (_ : r.toNat < 8), s.pc ≤ 254 →
    exec (.prn r) s = .next { s with output := s.output ++ [s.regs[r.toNat]], pc := s.pc + 2 }

/-- PUSH Rs: SP - 1, the source register read after the decrement stored at the new SP, PC + 2, nothing else; PUSH R7 stores
the decremented SP (43_stack.md, PUSH). -/
def Obligations.PushStoresBelowStack : Prop :=
  ∀ (r : Byte) (s : State) (_ : r.toNat < 8), s.pc ≤ 254 → 1 ≤ (s.regs[7]).toNat →
    exec (.push r) s = .next { s with
      regs := s.regs.set 7 (s.regs[7] - 1)
      mem := s.mem.write ((s.regs[7]).toNat - 1) (if r.toNat = 7 then s.regs[7] - 1 else s.regs[r.toNat])
      pc := s.pc + 2 }

/-- POP Rd: the byte at SP in Rd, then SP + 1, PC + 2, memory unchanged; POP R7 leaves the popped byte plus 1, and it is
that byte the range check sees (43_stack.md, POP; D4, log 5). -/
def Obligations.PopLoadsFromStack : Prop :=
  ∀ (d : Byte) (s : State) (hd : d.toNat < 8), s.pc ≤ 254 →
    (d.toNat ≠ 7 → (s.regs[7]).toNat ≤ 254 →
      exec (.pop d) s = .next { s with
        regs := (s.regs.set d.toNat (s.mem.read (s.regs[7]).toNat) hd).set 7 (s.regs[7] + 1)
        pc := s.pc + 2 }) ∧
    (d.toNat = 7 → (s.mem.read (s.regs[7]).toNat).toNat ≤ 254 →
      exec (.pop d) s = .next { s with
        regs := s.regs.set 7 (s.mem.read (s.regs[7]).toNat + 1)
        pc := s.pc + 2 })

/-- CALL Rt: SP - 1, the address of the instruction after CALL stored at the new SP, PC the target register read after the
decrement, nothing else; CALL R7 jumps to the decremented SP (44_control_transfer.md, CALL). -/
def Obligations.CallPushesReturnAddress : Prop :=
  ∀ (r : Byte) (s : State) (_ : r.toNat < 8), s.pc ≤ 253 → 1 ≤ (s.regs[7]).toNat →
    exec (.call r) s = .next { s with
      regs := s.regs.set 7 (s.regs[7] - 1)
      mem := s.mem.write ((s.regs[7]).toNat - 1) (BitVec.ofNat 8 (s.pc + 2))
      pc := (if r.toNat = 7 then s.regs[7] - 1 else s.regs[r.toNat]).toNat }

/-- RET: the byte at SP in PC, SP + 1, memory unchanged, nothing else, at any PC: no operand byte is read
(44_control_transfer.md, RET). -/
def Obligations.RetPopsPc : Prop :=
  ∀ s : State, (s.regs[7]).toNat ≤ 254 →
    exec .ret s = .next { s with
      regs := s.regs.set 7 (s.regs[7] + 1)
      pc := (s.mem.read (s.regs[7]).toNat).toNat }

/-- JMP Rt: PC is the register's value, nothing else (44_control_transfer.md, JMP, R130). -/
def Obligations.JmpSetsPc : Prop :=
  ∀ (r : Byte) (s : State) (_ : r.toNat < 8), s.pc ≤ 254 →
    exec (.jmp r) s = .next { s with pc := (s.regs[r.toNat]).toNat }

/-- JEQ Rt: with E set as JMP; with E clear PC + 2 at any address and for ANY operand byte, which is not read
(44_control_transfer.md, JEQ; R135, D11, log 10). -/
def Obligations.JeqBranchesOnEqual : Prop :=
  ∀ (r : Byte) (s : State),
    (∀ _ : r.toNat < 8, s.fl[0] = true → s.pc ≤ 254 →
      exec (.jeq r) s = .next { s with pc := (s.regs[r.toNat]).toNat }) ∧
    (s.fl[0] = false → exec (.jeq r) s = .next { s with pc := s.pc + 2 })

/-- JNE Rt: with E clear as JMP, before any CMP too; with E set PC + 2 at any address and for ANY operand byte
(44_control_transfer.md, JNE; R135, D11, log 10). -/
def Obligations.JneBranchesOnNotEqual : Prop :=
  ∀ (r : Byte) (s : State),
    (∀ _ : r.toNat < 8, s.fl[0] = false → s.pc ≤ 254 →
      exec (.jne r) s = .next { s with pc := (s.regs[r.toNat]).toNat }) ∧
    (s.fl[0] = true → exec (.jne r) s = .next { s with pc := s.pc + 2 })

/-! ## The instructions, where they raise -/

/-- A register operand above 7 raises RegisterIndexOutOfRange wherever it is used as an index, with nothing else changed; the
index is never masked. The first operand of ADD, MUL, CMP is tested before the second (10_state.md R12, D7, D10; log 7,
log 9). -/
def Obligations.RegisterIndexAboveSevenFaults : Prop :=
  ∀ (r x : Byte) (s : State), 8 ≤ r.toNat →
    let fault := Host.Outcome.next (φ := Fault) (ρ := Refusal)
      { s with run := .faulted (.registerIndexOutOfRange r.toNat) }
    (s.pc ≤ 253 →
      exec (.ldi r x) s = fault ∧ exec (.add r x) s = fault ∧ exec (.mul r x) s = fault ∧ exec (.cmp r x) s = fault ∧
      (x.toNat < 8 → exec (.add x r) s = fault ∧ exec (.mul x r) s = fault ∧ exec (.cmp x r) s = fault) ∧
      (s.regs[7] ≠ 0x00#8 → exec (.call r) s = fault)) ∧
    (s.pc ≤ 254 →
      exec (.prn r) s = fault ∧ exec (.pop r) s = fault ∧ exec (.jmp r) s = fault ∧
      (s.regs[7] ≠ 0x00#8 → exec (.push r) s = fault) ∧
      (s.fl[0] = true → exec (.jeq r) s = fault) ∧ (s.fl[0] = false → exec (.jne r) s = fault))

/-- An operand byte above 255 raises MemoryOutOfBounds(256) before anything else of the instruction: the first operand at PC
255, the second at PC 254 (60_exceptions.md R151, 20_memory.md R42; D3, D10; log 4, log 9). -/
def Obligations.OperandReadAboveMemoryFaults : Prop :=
  ∀ (r x : Byte) (s : State),
    let fault := Host.Outcome.next (φ := Fault) (ρ := Refusal)
      { s with run := .faulted (.memoryOutOfBounds 256) }
    (s.pc = 254 ∨ s.pc = 255 →
      exec (.ldi r x) s = fault ∧ exec (.add r x) s = fault ∧ exec (.mul r x) s = fault ∧ exec (.cmp r x) s = fault) ∧
    (s.pc = 255 →
      exec (.prn r) s = fault ∧ exec (.push r) s = fault ∧ exec (.pop r) s = fault ∧ exec (.call r) s = fault ∧
      exec (.jmp r) s = fault ∧ (s.fl[0] = true → exec (.jeq r) s = fault) ∧
      (s.fl[0] = false → exec (.jne r) s = fault))

/-- SP never wraps through a stack instruction: PUSH and CALL with SP 0 raise MemoryOutOfBounds(-1), POP and RET with 255 to
be incremented raise MemoryOutOfBounds(256), CALL at 254 raises MemoryOutOfBounds(256), all with nothing else changed
(43_stack.md R120, 44_control_transfer.md R131; conflict C1, D4, D6, D10; log 5, log 6, log 9). -/
def Obligations.StackNeverWraps : Prop :=
  ∀ (r : Byte) (s : State),
    let fault := fun a : Int => Host.Outcome.next (φ := Fault) (ρ := Refusal)
      { s with run := .faulted (.memoryOutOfBounds a) }
    (s.regs[7] = 0x00#8 → s.pc ≤ 254 → exec (.push r) s = fault (-1) ∧ exec (.call r) s = fault (-1)) ∧
    (s.regs[7] = 0xFF#8 → exec .ret s = fault 256) ∧
    (s.regs[7] = 0xFF#8 → s.pc ≤ 254 → r.toNat < 7 → exec (.pop r) s = fault 256) ∧
    (s.mem.read (s.regs[7]).toNat = 0xFF#8 → s.pc ≤ 254 → r.toNat = 7 → exec (.pop r) s = fault 256) ∧
    (s.regs[7] ≠ 0x00#8 → s.pc = 254 → exec (.call r) s = fault 256)

/-! ## Two steps and more -/

/-- PUSH Rs then POP Rd, neither of them R7: Rd holds what Rs held, SP is as before, the cell below SP holds the value, and
nothing else changed but PC and IR. The pushed cell must not be one of the POP's two bytes (43_stack.md R123, which the spec
derives). -/
def Obligations.StackRoundTrip : Prop :=
  ∀ (r d : Byte) (s : State) (hr : r.toNat < 7) (hd : d.toNat < 7), s.run = .running → s.mem.wf = true →
    HoldsAt s s.pc (encode (.push r) ++ encode (.pop d)) → 1 ≤ (s.regs[7]).toNat →
    (s.regs[7]).toNat - 1 ≠ s.pc + 2 → (s.regs[7]).toNat - 1 ≠ s.pc + 3 →
    ∃ t u, step s = .next t ∧ step t = .next u ∧
      u = { s with
        regs := s.regs.set d.toNat s.regs[r.toNat]
        mem := s.mem.write ((s.regs[7]).toNat - 1) s.regs[r.toNat]
        pc := s.pc + 4
        ir := opPOP } ∧
      u.mem.read ((s.regs[7]).toNat - 1) = s.regs[r.toNat]

/-- 44_control_transfer.md R137: CALL pushes the one-byte address of the instruction after it and RET pops one byte into PC,
both through R7, one byte of stack a call; a RET reached with SP and the return-address cell as the CALL left them resumes
at the instruction after the CALL, with SP as before the CALL. -/
def Obligations.CallThenReturn : Prop :=
  ∀ (r : Byte) (s : State) (hr : r.toNat < 8), s.run = .running → s.mem.wf = true →
    HoldsAt s s.pc (encode (.call r)) → s.pc ≤ 253 → 1 ≤ (s.regs[7]).toNat →
    ∃ t, step s = .next t ∧ t.pc = (t.regs[r.toNat]).toNat ∧ (t.regs[7]).toNat + 1 = (s.regs[7]).toNat ∧
      (t.mem.read (t.regs[7]).toNat).toNat = s.pc + 2 ∧
      ∀ u : State, u.run = .running → HoldsAt u u.pc (encode .ret) → u.regs[7] = t.regs[7] →
        u.mem.read (u.regs[7]).toNat = t.mem.read (t.regs[7]).toNat →
        ∃ v, step u = .next v ∧ v.pc = s.pc + 2 ∧ v.regs[7] = s.regs[7]

/-- A store is seen by the very next fetch: a PUSH that stores over the opcode of the next instruction has the stored byte
fetched (20_memory.md R53, D17; log 13). -/
def Obligations.StoreSeenByNextFetch : Prop :=
  ∀ (r : Byte) (s : State) (hr : r.toNat < 8), s.run = .running → s.mem.wf = true →
    HoldsAt s s.pc (encode (.push r)) → 1 ≤ (s.regs[7]).toNat → (s.regs[7]).toNat - 1 = s.pc + 2 →
    ∃ t u, step s = .next t ∧ t.pc = s.pc + 2 ∧ step t = .next u ∧ u.ir = t.regs[r.toNat]

/-- "`LDI r, v` followed by `PRN r` outputs exactly `v`" (95_test_vectors.md E1, 42_load_and_output.md). -/
def Obligations.LdiThenPrnOutputsValue : Prop :=
  ∀ (r v : Byte) (s : State), r.toNat < 8 → s.run = .running →
    HoldsAt s s.pc (encode (.ldi r v) ++ encode (.prn r)) →
    (runFor 2 s).output = s.output ++ [v] ∧ (runFor 2 s).run = .running

/-- CMP followed by JEQ or JNE: JEQ is taken iff the two registers are equal, JNE iff they are not (95_test_vectors.md E3,
41_alu.md, 44_control_transfer.md). -/
def Obligations.CmpThenBranch : Prop :=
  ∀ (a b r : Byte) (s : State) (ha : a.toNat < 8) (hb : b.toNat < 8) (hr : r.toNat < 8), s.run = .running →
    (HoldsAt s s.pc (encode (.cmp a b) ++ encode (.jeq r)) →
      (runFor 2 s).run = .running ∧
      (runFor 2 s).pc = if s.regs[a.toNat] = s.regs[b.toNat] then (s.regs[r.toNat]).toNat else s.pc + 5) ∧
    (HoldsAt s s.pc (encode (.cmp a b) ++ encode (.jne r)) →
      (runFor 2 s).run = .running ∧
      (runFor 2 s).pc = if s.regs[a.toNat] = s.regs[b.toNat] then s.pc + 5 else (s.regs[r.toNat]).toNat)

/-- ADD and MUL are commutative in their value: Ra after `ADD Ra,Rb` is Rb after `ADD Rb,Ra`, and so for MUL
(95_test_vectors.md E2, 41_alu.md R101). -/
def Obligations.AddAndMulCommuteInValue : Prop :=
  ∀ (a b : Byte) (s t u : State) (ha : a.toNat < 8) (hb : b.toNat < 8), s.run = .running → t.run = .running →
    (exec (.add a b) s = .next t → exec (.add b a) s = .next u → t.regs[a.toNat] = u.regs[b.toNat]) ∧
    (exec (.mul a b) s = .next t → exec (.mul b a) s = .next u → t.regs[a.toNat] = u.regs[b.toNat])

/-- The text of one entry of the output channel: at most three decimal digits that denote the value, no leading zero but 0's
own, then one newline (42_load_and_output.md, PRN, D12; the newline's byte is this model's choice, log 11). -/
def Obligations.EntryTextIsShortestNumeral : Prop :=
  ∀ v : Byte,
    (decimalDigits v).foldl (fun n d => 10 * n + d) 0 = v.toNat ∧ (∀ d ∈ decimalDigits v, d < 10) ∧
    1 ≤ (decimalDigits v).length ∧ (decimalDigits v).length ≤ 3 ∧
    (1 < (decimalDigits v).length → (decimalDigits v).head? ≠ some 0) ∧
    entryText v = (decimalDigits v).map (fun d => Char.ofNat (48 + d)) ++ ['\n']
end

