-- ==== Sys2Proof/Tests/Slice0.lean ====
section
/-! SUPPORT. The model's own tests. Expected results come from spec/95_test_vectors.md (its tables L2, cited by family) or
from the rule named; the words are written out from the table of 30_encoding.md R68. Then, for each obligation with
hypotheses, a witness: a concrete state and operands that meet all of them together. -/

namespace Sys2Proof.Tests

open Sys2Proof Sys2Proof.Machine

/-! ## Helpers -/

/-- The state an outcome goes on with. -/
def nextOf (o : Host.Outcome State Fault Refusal) : Option State :=
  match o with
  | .next t => some t
  | .fault _ => none
  | .refused _ => none

/-- The reset state with these bytes from address a on, and PC there. -/
def progAt (a : Nat) (bytes : List Byte) : State :=
  (State.reset.setMem (storeBytes a bytes [])).setPc a

/-- The state with x[i] set (i below 8). -/
def withReg (i : Nat) (v : Byte) (s : State) : State :=
  match writeReg i v s with
  | .ok t => t
  | .error _ => s

/-- The state with one more byte in memory. -/
def withByte (a : Nat) (v : Byte) (s : State) : State := s.setMem (s.mem.write a v)

/-- What one step leaves: PC, run state and one register. -/
def after (i : Fin 8) (s : State) : Option (Nat × RunState × Byte) :=
  (nextOf (step s)).map fun t => (t.pc, t.run, t.regs[i])

/-- What one step leaves of the run state. -/
def runAfter (s : State) : Option RunState := (nextOf (step s)).map State.run

/-- What one step leaves of PC and FL. -/
def pcFlAfter (s : State) : Option (Nat × Byte) := (nextOf (step s)).map fun t => (t.pc, t.fl)

/-! ## Well-formedness: an ill-formed term for each check -/

theorem test_wf_push : Instr.wellFormed (.push 8) = false := by decide
theorem test_wf_pop : Instr.wellFormed (.pop 8) = false := by decide
theorem test_wf_prn : Instr.wellFormed (.prn 255) = false := by decide
theorem test_wf_call : Instr.wellFormed (.call 8) = false := by decide
theorem test_wf_jmp : Instr.wellFormed (.jmp 8) = false := by decide
theorem test_wf_jeq : Instr.wellFormed (.jeq 8) = false := by decide
theorem test_wf_jne : Instr.wellFormed (.jne 8) = false := by decide
theorem test_wf_ldi : Instr.wellFormed (.ldi 8 0) = false := by decide
theorem test_wf_add_a : Instr.wellFormed (.add 8 0) = false := by decide
theorem test_wf_add_b : Instr.wellFormed (.add 0 8) = false := by decide
theorem test_wf_mul_a : Instr.wellFormed (.mul 8 0) = false := by decide
theorem test_wf_mul_b : Instr.wellFormed (.mul 0 8) = false := by decide
theorem test_wf_cmp_a : Instr.wellFormed (.cmp 8 0) = false := by decide
theorem test_wf_cmp_b : Instr.wellFormed (.cmp 0 8) = false := by decide
theorem test_wf_holds : Instr.WellFormed (.ldi 7 255) ∧ Instr.WellFormed (.cmp 7 7) ∧ Instr.WellFormed .hlt := by decide

/-! ## Decoding: each word bit by bit from the table of 30_encoding.md R68, operand bytes below it in the number -/

theorem test_decode_hlt : decodeTableWord 8 0b00000001 = some .hlt := by decide
theorem test_decode_ret : decodeTableWord 8 0b00010001 = some .ret := by decide
theorem test_decode_push : decodeTableWord 16 0b00000011_01000101 = some (.push 3) := by decide
theorem test_decode_pop : decodeTableWord 16 0b00000100_01000110 = some (.pop 4) := by decide
theorem test_decode_prn : decodeTableWord 16 0b00000101_01000111 = some (.prn 5) := by decide
theorem test_decode_call : decodeTableWord 16 0b00000001_01010000 = some (.call 1) := by decide
theorem test_decode_jmp : decodeTableWord 16 0b00000010_01010100 = some (.jmp 2) := by decide
theorem test_decode_jeq : decodeTableWord 16 0b11111111_01010101 = some (.jeq 255) := by decide
theorem test_decode_jne : decodeTableWord 16 0b00000110_01010110 = some (.jne 6) := by decide
theorem test_decode_ldi : decodeTableWord 24 0b11001000_00000011_10000010 = some (.ldi 3 200) := by decide
theorem test_decode_add : decodeTableWord 24 0b00000001_00000000_10100000 = some (.add 0 1) := by decide
theorem test_decode_mul : decodeTableWord 24 0b00000111_00000010_10100010 = some (.mul 2 7) := by decide
theorem test_decode_cmp : decodeTableWord 24 0b00001010_00001001_10100111 = some (.cmp 9 10) := by decide
/-- 30_encoding.md R72: 0x00 is illegal, the machine has no NOP. -/
theorem test_decode_zero : decode 0x00 0 0 = .error (.unknownOpcode 0x00) := by rfl
/-- 41_alu.md R105: 0xA1 (SUB elsewhere) is an unsupported ALU operation here. -/
theorem test_decode_sub : decode 0xA1 0 1 = .error (.unsupportedALU 0xA1) := by rfl
/-- 95_test_vectors.md, the decode of the structural fields. -/
theorem test_fields :
    (operandCount 0x82, isAlu 0x82, setsPc 0x82) = (2, false, false) ∧
    (operandCount 0x47, isAlu 0x47, setsPc 0x47) = (1, false, false) ∧
    (operandCount 0x50, isAlu 0x50, setsPc 0x50) = (1, false, true) ∧
    (operandCount 0x11, isAlu 0x11, setsPc 0x11) = (0, false, true) ∧
    (operandCount 0xA7, isAlu 0xA7, setsPc 0xA7) = (2, true, false) ∧
    (operandCount 0x01, isAlu 0x01, setsPc 0x01) = (0, false, false) ∧
    (operandCount 0xFF, isAlu 0xFF, setsPc 0xFF) = (3, true, true) := by decide
/-- Operand bytes that are not there, and none at all. -/
theorem test_decode_short :
    decodeList [0x82, 0x00] = .error (.missingOperand 0x82) ∧ decodeList [] = .error .noBytes := ⟨rfl, rfl⟩
/-- A word placed by the host is the next instruction run. -/
theorem test_withFetchWord : step (State.reset.withFetchWord 8 0x01) =
    exec .hlt { State.reset.withFetchWord 8 0x01 with ir := 0x01 } := by rfl

/-! ## One step each, from the tables of 95_test_vectors.md -/

theorem test_add_wraps :
    after 0 (withReg 1 100 (withReg 0 200 (progAt 0 [0xA0, 0x00, 0x01]))) = some (3, .running, 44) := by decide
theorem test_add_on_sp : after 7 (withReg 0 0x10 (progAt 0 [0xA0, 0x07, 0x00])) = some (3, .running, 0x04) := by decide
theorem test_mul_low_byte :
    after 0 (withReg 1 255 (withReg 0 255 (progAt 0 [0xA2, 0x00, 0x01]))) = some (3, .running, 1) := by decide
theorem test_mul_square : after 0 (withReg 0 13 (progAt 0 [0xA2, 0x00, 0x00])) = some (3, .running, 169) := by decide
theorem test_cmp_unsigned :
    pcFlAfter (withReg 1 127 (withReg 0 128 (progAt 0 [0xA7, 0x00, 0x01]))) = some (3, 0b010) := by decide
theorem test_cmp_overwrites :
    pcFlAfter ((withReg 1 7 (withReg 0 3 (progAt 0 [0xA7, 0x00, 0x01]))).setFl 0b001) = some (3, 0b100) := by decide
theorem test_alu_faults :
    runAfter (progAt 0 [0x20, 0x09, 0x09]) = some (.faulted (.unsupportedALUOperation 0x20)) ∧
    runAfter (progAt 0 [0xA7, 0x09, 0x0A]) = some (.faulted (.registerIndexOutOfRange 9)) ∧
    runAfter (progAt 255 [0xA1]) = some (.faulted (.memoryOutOfBounds 256)) := by decide
theorem test_ldi_sp : after 7 (progAt 0 [0x82, 0x07, 0x10]) = some (3, .running, 0x10) := by decide
theorem test_ldi_top : runAfter (progAt 254 [0x82, 0x00]) = some (.faulted (.memoryOutOfBounds 256)) := by decide
theorem test_prn_255 :
    (nextOf (step (withReg 2 255 (progAt 0 [0x47, 0x02])))).map (fun t => (t.output, t.pc)) = some ([255], 2) := by decide
theorem test_prn_at_top :
    (nextOf (step (withReg 0 254 (progAt 254 [0x47, 0x00])))).map (fun t => (t.output, t.pc, t.run)) =
      some ([254], 256, .running) := by decide
theorem test_push_sp :
    (nextOf (step (progAt 0 [0x45, 0x07]))).map (fun t => (t.regs[7], t.mem.read 0xF3, t.pc)) =
      some (0xF3, 0xF3, 2) := by decide
theorem test_push_at_zero :
    (nextOf (step (withReg 7 0 (progAt 0 [0x45, 0x00])))).map (fun t => (t.regs[7], t.run)) =
      some (0, .faulted (.memoryOutOfBounds (-1))) := by decide
theorem test_pop_sp : after 7 (withByte 255 7 (withReg 7 255 (progAt 0 [0x46, 0x07]))) = some (2, .running, 8) := by decide
theorem test_pop_not_written :
    after 0 (withByte 255 7 (withReg 7 255 (progAt 0 [0x46, 0x00]))) =
      some (0, .faulted (.memoryOutOfBounds 256), 0) := by decide
theorem test_call_sp :
    (nextOf (step (progAt 0x20 [0x50, 0x07]))).map (fun t => (t.regs[7], t.mem.read 0xF3, t.pc)) =
      some (0xF3, 0x22, 0xF3) := by decide
theorem test_call_at_254 : after 7 (progAt 254 [0x50, 0x00]) =
      some (254, .faulted (.memoryOutOfBounds 256), 0xF4) := by decide
theorem test_ret : after 7 (withByte 0xF3 8 (withReg 7 0xF3 (progAt 0x15 [0x11]))) = some (8, .running, 0xF4) := by decide
theorem test_ret_at_255 : after 7 (withReg 7 255 (progAt 0 [0x11])) =
      some (0, .faulted (.memoryOutOfBounds 256), 255) := by decide
theorem test_jmp : after 2 (withReg 2 0x16 (progAt 18 [0x54, 0x02])) = some (0x16, .running, 0x16) := by decide
theorem test_jeq_taken : pcFlAfter ((withReg 2 0x16 (progAt 18 [0x55, 0x02])).setFl 1) = some (0x16, 1) := by decide
theorem test_jeq_at_255 : pcFlAfter (progAt 255 [0x55]) = some (257, 0) := by decide
theorem test_jne_before_cmp : pcFlAfter (withReg 3 12 (progAt 20 [0x56, 0x03])) = some (12, 0) := by decide
theorem test_jne_at_255 : runAfter (progAt 255 [0x56]) = some (.faulted (.memoryOutOfBounds 256)) := by decide
theorem test_hlt : step (progAt 0 [0x01]) = .next { progAt 0 [0x01] with ir := 0x01, run := .halted } := by rfl
theorem test_unknown_at_255 : runAfter (progAt 255 [0x00]) = some (.faulted (.unknownOpcode 0x00)) := by decide
theorem test_fetch_at_256 :
    step ((progAt 0 []).setPc 256) =
      .next { (progAt 0 []).setPc 256 with run := .faulted (.memoryOutOfBounds 256) } := by rfl
/-- 42_load_and_output.md R112: shortest numeral, one newline. -/
theorem test_text : entryText 0 = ['0', '\n'] ∧ entryText 72 = ['7', '2', '\n'] ∧
    entryText 205 = ['2', '0', '5', '\n'] := by decide

/-! ## Witnesses: for each obligation with hypotheses, states and operands that meet them, one for each clause, at the
boundary of the clause's range where it has one -/

/-- A run of k steps that never stops. -/
def afterSteps (k : Nat) (s : State) : Option State := nextOf (Sys2Proof.core.run k s)

theorem witness_DecodeOfEncode : operandsOf (.push 255) <+: [255, 7] ∧ operandsOf (.ldi 7 255) <+: [7, 255] := by decide

theorem witness_EncodeOfDecode : decode 0xA7 7 0 = .ok (.cmp 7 0) ∧ encode (.cmp 7 0) = [0xA7, 7, 0] := by
  exact ⟨rfl, rfl⟩

theorem witness_IllegalOpcodesByName :
    decode 0x20 0 0 = .error (.unsupportedALU 0x20) ∧ decode 0xFF 0 0 = .error (.unsupportedALU 0xFF) ∧
    decode 0x1F 0 0 = .error (.unknownOpcode 0x1F) ∧ decode 0xC0 0 0 = .error (.unknownOpcode 0xC0) := ⟨rfl, rfl, rfl, rfl⟩

theorem witness_StepRunsDecodedInstruction :
    (progAt 253 [0x82, 3, 200]).run = .running ∧ (progAt 253 [0x82, 3, 200]).pc ≤ 253 ∧
    decode ((progAt 253 [0x82, 3, 200]).mem.read 253) ((progAt 253 [0x82, 3, 200]).mem.read 254)
      ((progAt 253 [0x82, 3, 200]).mem.read 255) = .ok (.ldi 3 200) := ⟨rfl, by decide, rfl⟩

theorem witness_AbsentOperandBytesAreNeverUsed_at_254 :
    (progAt 254 [0x47, 5]).run = .running ∧ (progAt 254 [0x47, 5]).pc = 254 ∧
    (5 : Byte) = (progAt 254 [0x47, 5]).mem.read 255 ∧
    decode ((progAt 254 [0x47, 5]).mem.read 254) 5 99 = .ok (.prn 5) := ⟨rfl, rfl, rfl, rfl⟩

theorem witness_AbsentOperandBytesAreNeverUsed_at_255 :
    (progAt 255 [0x55]).run = .running ∧ (progAt 255 [0x55]).pc = 255 ∧
    decode ((progAt 255 [0x55]).mem.read 255) 77 99 = .ok (.jeq 77) ∧
    pcFlAfter (progAt 255 [0x55]) = some (257, 0) := ⟨rfl, rfl, rfl, by decide⟩

theorem witness_StepRunsEncodedInstruction :
    (progAt 253 [0xA0, 0, 1]).run = .running ∧ HoldsAt (progAt 253 [0xA0, 0, 1]) 253 (encode (.add 0 1)) :=
  ⟨rfl, by decide, by decide⟩

theorem witness_FetchAboveMemoryFaults :
    ((progAt 0 []).setPc 256).run = .running ∧ 255 < ((progAt 0 []).setPc 256).pc := ⟨rfl, by decide⟩

theorem witness_HaltTestComesFirst :
    (progAt 255 [0x01]).run = .running ∧ (progAt 255 [0x01]).pc ≤ 255 ∧
    (progAt 255 [0x01]).mem.read 255 = opHLT ∧ runAfter (progAt 255 [0x01]) = some .halted := by decide

theorem witness_UnknownOpcodeFaults :
    (progAt 255 [0x81]).run = .running ∧ (progAt 255 [0x81]).pc ≤ 255 ∧ (progAt 255 [0x81]).mem.read 255 = 0x81 ∧
    (0x81 : Byte)[5] = false ∧ (0x81 : Byte) ≠ opHLT ∧ (∀ h, ((0x81 : Byte), h) ∉ dispatchTable) ∧
    runAfter (progAt 255 [0x81]) = some (.faulted (.unknownOpcode 0x81)) :=
  ⟨rfl, by decide, rfl, by decide, by decide, fun h => by cases h <;> decide, by decide⟩

theorem witness_UnsupportedAluFaults :
    (0xA1 : Byte)[5] = true ∧ (0xA1 : Byte) ≠ opADD ∧ (0xA1 : Byte) ≠ opMUL ∧ (0xA1 : Byte) ≠ opCMP ∧
    runAfter (progAt 253 [0xA1]) = some (.faulted (.unsupportedALUOperation 0xA1)) ∧
    runAfter (progAt 254 [0xA1]) = some (.faulted (.memoryOutOfBounds 256)) ∧
    runAfter (progAt 255 [0xA1]) = some (.faulted (.memoryOutOfBounds 256)) := by decide

theorem witness_StepIsTotalWhileRunning :
    (progAt 0 [0x01]).run = .running ∧ ((progAt 0 []).setRun .halted).run = .halted ∧
    ((progAt 0 []).setRun (.faulted (.unknownOpcode 0))).run = .faulted (.unknownOpcode 0) := ⟨rfl, rfl, rfl⟩

theorem witness_LoadPlacesImage :
    (List.replicate 256 (0x01 : Byte)).length ≤ 256 ∧ 256 < (List.replicate 257 (0x01 : Byte)).length :=
  ⟨Nat.le_of_eq List.length_replicate, by rw [List.length_replicate]; omega⟩

theorem witness_EntryPointIsAddressZero :
    ∃ s t, loadImage [0x82, 0x00, 0x08] = .next s ∧ step s = .next t ∧ t.ir = 0x82 := ⟨_, _, rfl, rfl, rfl⟩

/-- A state with a stored byte and a flag, one step from HALTED, meets the invariant. -/
theorem witness_StepKeepsInvariant :
    Inv ((progAt 255 [0x01]).setFl 0b100) ∧ ∃ t, step ((progAt 255 [0x01]).setFl 0b100) = .next t ∧ t.run = .halted :=
  ⟨⟨by decide, by decide, .inr (.inr (.inr rfl)), trivial⟩, _, rfl, rfl⟩

theorem witness_InvariantAlongEveryRun : ∃ s, loadImage [0x45, 0x07] = .next s := ⟨_, rfl⟩

/-- R0 = 3, R1 = 7, `CMP R0,R1` at the highest address it fits. -/
def cmpState : State := withReg 1 7 (withReg 0 3 (progAt 253 [0xA7, 0x00, 0x01]))

theorem witness_OnlyCmpWritesFl :
    cmpState.run = .running ∧
    (∃ t, exec (.cmp 0 1) cmpState = .next t ∧ t.run = .running ∧ t.fl = 0b100) ∧
    ∃ t, step cmpState = .next t ∧ t.fl ≠ cmpState.fl := ⟨rfl, ⟨_, rfl, rfl, rfl⟩, _, rfl, by decide⟩

theorem witness_OnlyEqualBitIsRead_others :
    ∃ t, exec (.add 0 1) cmpState = .next t ∧ ∀ r, Instr.add 0 1 ≠ .jeq r ∧ Instr.add 0 1 ≠ .jne r :=
  ⟨_, rfl, fun _ => ⟨by simp, by simp⟩⟩

theorem witness_OnlyEqualBitIsRead_branches :
    (∃ t, exec (.jeq 0) (cmpState.setFl 0b010) = .next t) ∧ (0b100 : Byte)[0] = (cmpState.setFl 0b010).fl[0] :=
  ⟨⟨_, rfl⟩, by decide⟩

theorem witness_DefaultAdvanceOfStep :
    ∃ t, cmpState.run = .running ∧ step cmpState = .next t ∧ t.run = .running ∧
      (cmpState.mem.read cmpState.pc)[4] = false ∧ t.pc = 256 := ⟨_, rfl, rfl, rfl, by decide, rfl⟩

theorem witness_DefaultAdvancePerInstruction :
    (∃ t, exec (.mul 0 1) cmpState = .next t ∧ t.run = .running ∧ setsPc (opcodeOf (.mul 0 1)) = false) ∧
    (∃ t, exec (.pop 3) cmpState = .next t ∧ t.run = .running ∧ setsPc (opcodeOf (.pop 3)) = false) ∧
    ∃ t, exec .hlt cmpState = .next t :=
  ⟨⟨_, rfl, rfl, by decide⟩, ⟨_, rfl, rfl, by decide⟩, _, rfl⟩

theorem witness_TransfersSetPc_taken :
    (∃ t, exec (.call 0) cmpState = .next t ∧ t.run = .running) ∧ (∃ t, exec (.jmp 0) cmpState = .next t ∧ t.run = .running) ∧
    (∃ t, exec (.jeq 0) (cmpState.setFl 1) = .next t ∧ t.run = .running ∧ (cmpState.setFl 1).fl[0] = true) ∧
    (∃ t, exec (.jne 0) cmpState = .next t ∧ t.run = .running ∧ cmpState.fl[0] = false) ∧
    ∃ t, exec .ret cmpState = .next t ∧ t.run = .running :=
  ⟨⟨_, rfl, rfl⟩, ⟨_, rfl, rfl⟩, ⟨_, rfl, rfl, by decide⟩, ⟨_, rfl, rfl, by decide⟩, _, rfl, rfl⟩

theorem witness_TransfersSetPc_other :
    (∃ t, exec (.jeq 9) cmpState = .next t ∧ t.run = .running ∧ cmpState.fl[0] = false) ∧
    (∃ t, exec (.jne 9) (cmpState.setFl 1) = .next t ∧ t.run = .running ∧ (cmpState.setFl 1).fl[0] = true) ∧
    (∃ t, exec .hlt cmpState = .next t ∧ t.run = .halted) ∧
    ∃ t, exec (.jmp 8) cmpState = .next t ∧ t.run = .faulted (.registerIndexOutOfRange 8) :=
  ⟨⟨_, rfl, rfl, by decide⟩, ⟨_, rfl, rfl, by decide⟩, ⟨_, rfl, rfl⟩, _, rfl, rfl⟩

theorem witness_RegisterFrame : ∃ t, exec (.pop 0) cmpState = .next t ∧ 6 < 8 ∧ 6 ∉ destinations (.pop 0) :=
  ⟨_, rfl, by decide, by decide⟩

theorem witness_MemoryFrame :
    (∃ t, exec (.push 0) cmpState = .next t) ∧ storedAddress (.push 0) cmpState = some 0xF3 ∧
    storedAddress (.push 0) cmpState ≠ some 0xF4 ∧
    (∃ t, exec (.add 0 1) cmpState = .next t) ∧ storedAddress (.add 0 1) cmpState = none :=
  ⟨⟨_, rfl⟩, by decide, by decide, ⟨_, rfl⟩, by decide⟩

theorem witness_StoredByteReadsBack :
    cmpState.mem.wf = true ∧ cmpState.run = .running ∧
    (∃ t, exec (.push 0) cmpState = .next t ∧ t.run = .running) ∧ storedAddress (.push 0) cmpState = some 0xF3 ∧
    (∃ t, exec (.call 0) cmpState = .next t ∧ t.run = .running) ∧ storedAddress (.call 0) cmpState = some 0xF3 :=
  ⟨by decide, rfl, ⟨_, rfl, rfl⟩, by decide, ⟨_, rfl, rfl⟩, by decide⟩

theorem witness_OutputFrame : ∃ t, exec (.prn 1) cmpState = .next t ∧ t.output = [7] := ⟨_, rfl, by decide⟩

theorem witness_FatalErrorsArePrecise :
    (∃ t, exec (.push 8) cmpState = .next t ∧ t.run = .faulted (.registerIndexOutOfRange 8)) ∧
    (∃ t, step (progAt 255 [0xA1]) = .next t ∧ t.run = .faulted (.memoryOutOfBounds 256)) ∧
    ∃ t, step (cmpState.setPc 256) = .next t ∧ t.run = .faulted (.memoryOutOfBounds 256) :=
  ⟨⟨_, rfl, rfl⟩, ⟨_, rfl, rfl⟩, _, rfl, rfl⟩

theorem witness_RaisesFirstError :
    firstError (.call 8) (withReg 7 0 (progAt 254 [0x50, 8])) = some (.memoryOutOfBounds (-1)) ∧
    firstError (.call 8) (progAt 254 [0x50, 8]) = some (.memoryOutOfBounds 256) ∧
    firstError (.call 8) (progAt 253 [0x50, 8]) = some (.registerIndexOutOfRange 8) ∧
    firstError (.call 7) (progAt 253 [0x50, 7]) = none := by decide

theorem witness_IrIsNotReadAsData : ∃ t, exec (.pop 1) cmpState = .next t := ⟨_, rfl⟩

theorem witness_OnlyPopAndRetReadMemoryData :
    (∃ t, exec (.cmp 0 1) cmpState = .next t) ∧
    ∃ t, exec (.call 0) cmpState = .next t ∧ (∀ r, Instr.call 0 ≠ .pop r) ∧ Instr.call 0 ≠ .ret :=
  ⟨⟨_, rfl⟩, _, rfl, fun _ => by simp, by simp⟩

theorem witness_AddWrapsModulo256 : (7 : Byte).toNat < 8 ∧ (0 : Byte).toNat < 8 ∧ cmpState.pc ≤ 253 := by decide
theorem witness_MulKeepsLowByte : (0 : Byte).toNat < 8 ∧ (7 : Byte).toNat < 8 ∧ cmpState.pc ≤ 253 := by decide
theorem witness_CmpSetsOneFlag : (7 : Byte).toNat < 8 ∧ (7 : Byte).toNat < 8 ∧ cmpState.pc ≤ 253 := by decide
theorem witness_LdiLoadsImmediate : (7 : Byte).toNat < 8 ∧ cmpState.pc ≤ 253 := by decide
theorem witness_PrnEmitsRegister : (7 : Byte).toNat < 8 ∧ (progAt 254 [0x47, 7]).pc ≤ 254 := by decide

theorem witness_PushStoresBelowStack :
    (7 : Byte).toNat < 8 ∧ (withReg 7 1 (progAt 254 [0x45, 7])).pc ≤ 254 ∧
    1 ≤ ((withReg 7 1 (progAt 254 [0x45, 7])).regs[7]).toNat := by decide

theorem witness_PopLoadsFromStack :
    (progAt 254 [0x46, 6]).pc ≤ 254 ∧ (6 : Byte).toNat < 8 ∧ (6 : Byte).toNat ≠ 7 ∧
    ((withReg 7 254 (progAt 254 [0x46, 6])).regs[7]).toNat ≤ 254 ∧ (7 : Byte).toNat = 7 ∧
    ((withByte 0xF4 254 (progAt 254 [0x46, 7])).mem.read 0xF4).toNat ≤ 254 := by decide

theorem witness_CallPushesReturnAddress :
    (7 : Byte).toNat < 8 ∧ (withReg 7 1 (progAt 253 [0x50, 7])).pc ≤ 253 ∧
    1 ≤ ((withReg 7 1 (progAt 253 [0x50, 7])).regs[7]).toNat := by decide

theorem witness_RetPopsPc : ((withReg 7 254 (progAt 255 [0x11])).regs[7]).toNat ≤ 254 := by decide
theorem witness_JmpSetsPc : (7 : Byte).toNat < 8 ∧ (progAt 254 [0x54, 7]).pc ≤ 254 := by decide

theorem witness_JeqBranchesOnEqual :
    (7 : Byte).toNat < 8 ∧ ((progAt 254 [0x55, 7]).setFl 1).fl[0] = true ∧ ((progAt 254 [0x55, 7]).setFl 1).pc ≤ 254 ∧
    (progAt 255 [0x55]).fl[0] = false := by decide

theorem witness_JneBranchesOnNotEqual :
    (7 : Byte).toNat < 8 ∧ (progAt 254 [0x56, 7]).fl[0] = false ∧ (progAt 254 [0x56, 7]).pc ≤ 254 ∧
    ((progAt 255 [0x56]).setFl 1).fl[0] = true := by decide

theorem witness_RegisterIndexAboveSevenFaults :
    8 ≤ (8 : Byte).toNat ∧ (progAt 253 []).pc ≤ 253 ∧ (7 : Byte).toNat < 8 ∧ (progAt 253 []).regs[7] ≠ 0x00#8 ∧
    (progAt 254 []).pc ≤ 254 ∧ (progAt 254 []).regs[7] ≠ 0x00#8 ∧
    ((progAt 254 []).setFl 1).fl[0] = true ∧ (progAt 254 []).fl[0] = false := by decide

theorem witness_OperandReadAboveMemoryFaults :
    (progAt 254 []).pc = 254 ∧ (progAt 255 []).pc = 255 ∧ ((progAt 255 []).setFl 1).fl[0] = true ∧
    (progAt 255 []).fl[0] = false := by decide

theorem witness_StackNeverWraps_push :
    (withReg 7 0 (progAt 254 [])).regs[7] = 0x00#8 ∧ (withReg 7 0 (progAt 254 [])).pc ≤ 254 ∧
    (withReg 7 1 (progAt 254 [])).regs[7] ≠ 0x00#8 ∧ (withReg 7 1 (progAt 254 [])).pc = 254 := by decide

theorem witness_StackNeverWraps_pop :
    (withReg 7 255 (progAt 254 [])).regs[7] = 0xFF#8 ∧ (withReg 7 255 (progAt 254 [])).pc ≤ 254 ∧ (6 : Byte).toNat < 7 ∧
    (withByte 0xF4 255 (progAt 254 [])).mem.read ((withByte 0xF4 255 (progAt 254 [])).regs[7]).toNat = 0xFF#8 ∧
    (7 : Byte).toNat = 7 := by decide

/-- `PUSH R6; POP R0` at the top of memory, with SP 1, the lowest it may be. -/
theorem witness_StackRoundTrip :
    let s := withReg 7 1 (progAt 252 (encode (.push 6) ++ encode (.pop 0)))
    (6 : Byte).toNat < 7 ∧ (0 : Byte).toNat < 7 ∧ s.run = .running ∧ s.mem.wf = true ∧
    HoldsAt s s.pc (encode (.push 6) ++ encode (.pop 0)) ∧ 1 ≤ (s.regs[7]).toNat ∧
    (s.regs[7]).toNat - 1 ≠ s.pc + 2 ∧ (s.regs[7]).toNat - 1 ≠ s.pc + 3 :=
  ⟨by decide, by decide, rfl, by decide, ⟨by decide, by decide⟩, by decide, by decide, by decide⟩

/-- `CALL R1` at 0x06 to 0x0B and the RET there (95_test_vectors.md, the CALL row and the RET row). -/
theorem witness_CallThenReturn :
    let s := withByte 0x0B 0x11 (withReg 1 0x0B (progAt 6 (encode (.call 1))))
    (1 : Byte).toNat < 8 ∧ s.run = .running ∧ s.mem.wf = true ∧ HoldsAt s s.pc (encode (.call 1)) ∧ s.pc ≤ 253 ∧
    1 ≤ (s.regs[7]).toNat ∧
    ∃ t, step s = .next t ∧ t.run = .running ∧ HoldsAt t t.pc (encode .ret) ∧
      (afterSteps 2 s).map (fun v => (v.pc, v.regs[7])) = some (8, 0xF4) :=
  ⟨by decide, rfl, by decide, ⟨by decide, by decide⟩, by decide, by decide, _, rfl, rfl, ⟨by decide, by decide⟩, by decide⟩

/-- Program P6 of 95_test_vectors.md at its third step: PUSH R0 plants a HLT over the next opcode. -/
theorem witness_StoreSeenByNextFetch :
    let s := withReg 7 9 (withReg 0 1 (progAt 6 [0x45, 0x00, 0x47, 0x00, 0x01]))
    (0 : Byte).toNat < 8 ∧ s.run = .running ∧ s.mem.wf = true ∧ HoldsAt s s.pc (encode (.push 0)) ∧
    1 ≤ (s.regs[7]).toNat ∧ (s.regs[7]).toNat - 1 = s.pc + 2 ∧
    (afterSteps 2 s).map (fun v => (v.pc, v.run)) = some (8, .halted) :=
  ⟨by decide, rfl, by decide, ⟨by decide, by decide⟩, by decide, by decide, by decide⟩

theorem witness_LdiThenPrnOutputsValue :
    let s := progAt 251 (encode (.ldi 7 200) ++ encode (.prn 7))
    (7 : Byte).toNat < 8 ∧ s.run = .running ∧ HoldsAt s s.pc (encode (.ldi 7 200) ++ encode (.prn 7)) :=
  ⟨by decide, rfl, by decide, by decide⟩

theorem witness_CmpThenBranch :
    let s := progAt 251 (encode (.cmp 0 7) ++ encode (.jeq 7))
    let u := progAt 251 (encode (.cmp 0 7) ++ encode (.jne 7))
    (0 : Byte).toNat < 8 ∧ (7 : Byte).toNat < 8 ∧ s.run = .running ∧ u.run = .running ∧
    HoldsAt s s.pc (encode (.cmp 0 7) ++ encode (.jeq 7)) ∧ HoldsAt u u.pc (encode (.cmp 0 7) ++ encode (.jne 7)) :=
  ⟨by decide, by decide, rfl, rfl, ⟨by decide, by decide⟩, by decide, by decide⟩

theorem witness_AddAndMulCommuteInValue :
    cmpState.run = .running ∧
    (∃ t u, exec (.add 0 1) cmpState = .next t ∧ exec (.add 1 0) cmpState = .next u ∧ t.run = .running) ∧
    ∃ t u, exec (.mul 0 1) cmpState = .next t ∧ exec (.mul 1 0) cmpState = .next u ∧ t.run = .running :=
  ⟨rfl, ⟨_, _, rfl, rfl, rfl⟩, _, _, rfl, rfl, rfl⟩

end Sys2Proof.Tests
end

/-! The proofs of the statements of 10_state.md: which instruction writes FL and which reads it, how far PC advances, and
the frame of the registers. What a completed instruction leaves alone is read off `Completed`, field by field; that FL is
not read is shown operation by operation, each of which commutes with `State.setFl`. -/

namespace Sys2Proof.Machine

variable {i : Instr} {s t : State} {f : Byte}

/-! ## Decoding names the opcode -/

theorem aluSelect_some {op : Byte} {g : AluOp} (b1 b2 : Byte) (h : aluSelect op = some g) :
    op = opcodeOf (g.instr b1 b2) := by
  unfold aluSelect at h
  split_ifs at h with hadd hmul hcmp <;> cases h <;> assumption

theorem dispatchLookup_some {op : Byte} {g : Handler} (b1 b2 : Byte) (h : dispatchLookup op = some g) :
    op = opcodeOf (g.instr b1 b2) := by
  obtain ⟨l₁, l₂, hl, -⟩ := List.lookup_eq_some_iff.1 h
  have hmem : (op, g) ∈ dispatchTable := by simp [hl]
  simp only [dispatchTable, List.mem_cons, Prod.mk.injEq, List.not_mem_nil, or_false] at hmem
  rcases hmem with h | h | h | h | h | h | h | h | h <;> obtain ⟨rfl, rfl⟩ := h <;> rfl

/-- A decoded byte is the opcode byte of the instruction it decodes to. -/
theorem decode_ok_opcode {op b1 b2 : Byte} (h : decode op b1 b2 = .ok i) : op = opcodeOf i := by
  unfold decode at h
  split at h
  · cases h; assumption
  · split at h
    · split at h
      · cases h; exact aluSelect_some b1 b2 ‹_›
      · cases h
    · split at h
      · cases h; exact dispatchLookup_some b1 b2 ‹_›
      · cases h

/-! ## What an instruction leaves alone -/

theorem exec_next (i : Instr) (s : State) : ∃ t, exec i s = .next t := by
  obtain ⟨t, ht, -⟩ | ⟨e, he⟩ := exec_cases (rfl : exec i s = exec i s)
  · exact ⟨t, ht⟩
  · exact ⟨_, he⟩

/-- `exec_cases` on the state that an instruction answers. -/
theorem exec_next_cases (h : exec i s = .next t) : Completed i s t ∨ ∃ e, t = s.setRun (.faulted e) := by
  obtain ⟨t, ht, hc⟩ | ⟨e, he⟩ := exec_cases h
  · cases ht; exact .inl hc
  · cases he; exact .inr ⟨e, rfl⟩

/-- An instruction after which the machine still runs has completed. -/
theorem completed_of_running (h : exec i s = .next t) (hrun : t.run = .running) : Completed i s t := by
  obtain hc | ⟨e, rfl⟩ := exec_next_cases h
  · exact hc
  · simp at hrun

/-- The frame of a completed instruction: every register but its destinations stays, IR stays, FL stays or is CMP's
overwrite, and PC takes the default advance where the sets-PC flag is clear. -/
structure Frame (i : Instr) (s t : State) : Prop where
  regs : ∀ (k : Nat) (h : k < 8), k ∉ destinations i → t.regs[k] = s.regs[k]
  ir : t.ir = s.ir
  fl : t.fl = s.fl ∨ ∃ a b va vb, i = .cmp a b ∧ t.fl = compareFlags va vb
  pc : setsPc (opcodeOf i) = false → i ≠ .hlt → t.pc = s.pc + 1 + operandCount (opcodeOf i)

/-- Writing one of a list of registers leaves every register outside the list. -/
theorem getElem_set_of_notMem {r : Vector Byte 8} {a k : Nat} {v : Byte} {l : List Nat} (ha : a < 8) (hk : k < 8)
    (hmem : a ∈ l) (hd : k ∉ l) : (r.set a v ha)[k] = r[k] :=
  Vector.getElem_set_ne ha hk fun h => hd (h ▸ hmem)

theorem Completed.frame (h : Completed i s t) : Frame i s t := by
  cases i with
  | hlt =>
    obtain rfl := h
    exact ⟨fun _ _ _ => rfl, rfl, .inl rfl, fun _ hne => absurd rfl hne⟩
  | ret =>
    obtain ⟨_, rfl⟩ := h
    exact ⟨fun _ hk hd => getElem_set_of_notMem (by decide) hk (by simp [destinations]) hd, rfl, .inl rfl,
      by simp [opcodeOf]⟩
  | push r =>
    obtain ⟨_, s1, h1, _, rfl⟩ := h
    obtain ⟨_, rfl⟩ := decSp_ok.1 h1
    exact ⟨fun _ hk hd => getElem_set_of_notMem (by decide) hk (by simp [destinations]) hd, rfl, .inl rfl,
      by simp [opcodeOf]⟩
  | pop r =>
    obtain ⟨_, hr, s2, h2, rfl⟩ := h
    obtain ⟨_, rfl⟩ := incSp_ok.1 h2
    exact ⟨fun _ hk hd => (getElem_set_of_notMem (by decide) hk (by simp [destinations]) hd).trans
      (getElem_set_of_notMem hr hk (by simp [destinations]) hd), rfl, .inl rfl, by simp [opcodeOf]⟩
  | prn r =>
    obtain ⟨_, _, rfl⟩ := h
    exact ⟨fun _ _ _ => rfl, rfl, .inl rfl, by simp [opcodeOf]⟩
  | call r =>
    obtain ⟨_, s1, h1, _, rfl⟩ := h
    obtain ⟨_, rfl⟩ := decSp_ok.1 h1
    exact ⟨fun _ hk hd => getElem_set_of_notMem (by decide) hk (by simp [destinations]) hd, rfl, .inl rfl,
      by simp [opcodeOf]⟩
  | jmp r =>
    obtain ⟨_, _, rfl⟩ := h
    exact ⟨fun _ _ _ => rfl, rfl, .inl rfl, by simp [opcodeOf]⟩
  | jeq r | jne r =>
    obtain ⟨_, _, _, rfl⟩ | ⟨_, rfl⟩ := h <;> exact ⟨fun _ _ _ => rfl, rfl, .inl rfl, by simp [opcodeOf]⟩
  | ldi r imm =>
    obtain ⟨_, hr, rfl⟩ := h
    exact ⟨fun _ hk hd => getElem_set_of_notMem hr hk (by simp [destinations]) hd, rfl, .inl rfl,
      by simp [opcodeOf]⟩
  | add a b | mul a b =>
    obtain ⟨_, hr, _, rfl⟩ := h
    exact ⟨fun _ hk hd => getElem_set_of_notMem hr hk (by simp [destinations]) hd, rfl, .inl rfl,
      by simp [opcodeOf]⟩
  | cmp a b =>
    obtain ⟨_, _, _, rfl⟩ := h
    exact ⟨fun _ _ _ => rfl, rfl, .inr ⟨a, b, _, _, rfl, rfl⟩, by simp [opcodeOf]⟩

/-- IR is the fetch's alone, whether the instruction completes or not. -/
theorem exec_keeps_ir (h : exec i s = .next t) : t.ir = s.ir := by
  obtain hc | ⟨e, rfl⟩ := exec_next_cases h
  · exact hc.frame.ir
  · rfl

theorem exec_keeps_regs (h : exec i s = .next t) {k : Nat} (hk : k < 8) (hd : k ∉ destinations i) :
    t.regs[k] = s.regs[k] := by
  obtain hc | ⟨e, rfl⟩ := exec_next_cases h
  · exact hc.frame.regs k hk hd
  · rfl

/-- A branch, taken or not, or stopped by an error, moves PC or the run state alone. -/
theorem branch_keeps (hi : ∃ r, i = .jeq r ∨ i = .jne r) (h : exec i s = .next t) :
    t.regs = s.regs ∧ t.mem = s.mem ∧ t.output = s.output := by
  obtain ⟨r, rfl | rfl⟩ := hi <;>
    obtain (⟨_, _, _, rfl⟩ | ⟨_, rfl⟩) | ⟨_, rfl⟩ := exec_next_cases h <;> exact ⟨rfl, rfl, rfl⟩

/-! ## Only CMP writes FL -/

theorem compareFlags_cases (va vb : Byte) :
    compareFlags va vb = 0b100#8 ∨ compareFlags va vb = 0b010#8 ∨ compareFlags va vb = 0b001#8 := by
  unfold compareFlags
  split
  · exact .inl rfl
  · split
    · exact .inr (.inl rfl)
    · exact .inr (.inr rfl)

theorem exec_fl_cases (h : exec i s = .next t) :
    t.fl = s.fl ∨ ((∃ a b, i = .cmp a b) ∧ (t.fl = 0b100#8 ∨ t.fl = 0b010#8 ∨ t.fl = 0b001#8)) := by
  obtain hc | ⟨e, rfl⟩ := exec_next_cases h
  · obtain hfl | ⟨a, b, va, vb, rfl, hfl⟩ := hc.frame.fl
    · exact .inl hfl
    · exact .inr ⟨⟨a, b, rfl⟩, hfl ▸ compareFlags_cases va vb⟩
  · exact .inl rfl

theorem rejectAlu_keeps_fl {op : Byte} (h : rejectAlu op s = .next t) : t.fl = s.fl := by
  obtain ⟨u, hu, -⟩ | ⟨e, -, he⟩ := commit_cases h
  · simp [bind_ok] at hu
  · cases he; rfl

theorem rejectUnknown_keeps_fl {op : Byte} (h : rejectUnknown op s = .next t) : t.fl = s.fl := by
  cases h; rfl

/-- A step that changes FL has fetched CMP's opcode. -/
theorem step_changes_fl (h : step s = .next t) (hne : t.fl ≠ s.fl) : t.ir = opCMP := by
  obtain ⟨-, hr⟩ | ⟨e, -, hr⟩ | ⟨-, -, hr⟩ | ⟨-, -, f, rfl, hr⟩ := step_cases h
  · cases hr
  · cases hr
  · cases hr
    exact absurd rfl hne
  · obtain ⟨i, hd, hx⟩ | ⟨op, -, hx⟩ | ⟨op, -, hx⟩ := hr
    · obtain hfl | ⟨⟨a, b, rfl⟩, -⟩ := exec_fl_cases hx.symm
      · exact absurd hfl hne
      · exact (exec_keeps_ir hx.symm).trans (decode_ok_opcode hd)
    · exact absurd (rejectAlu_keeps_fl hx.symm) hne
    · exact absurd (rejectUnknown_keeps_fl hx.symm) hne

/-! ## Only the branches read FL

Each operation commutes with `setFl`, so a sequence of them does. -/

@[simp] theorem setPc_setFl (s : State) (n : Nat) (f : Byte) : (s.setFl f).setPc n = (s.setPc n).setFl f := rfl
@[simp] theorem emit_setFl (s : State) (v f : Byte) : (s.setFl f).emit v = (s.emit v).setFl f := rfl

@[simp] theorem fetchOperand_setFl (k : Nat) : fetchOperand k (s.setFl f) = fetchOperand k s := rfl
@[simp] theorem memRead_setFl (a : Nat) : memRead a (s.setFl f) = memRead a s := rfl
@[simp] theorem regValue_setFl (r : Byte) : regValue r (s.setFl f) = regValue r s := rfl
@[simp] theorem stackTop_setFl : stackTop (s.setFl f) = stackTop s := rfl
@[simp] theorem returnAddress_setFl : returnAddress (s.setFl f) = returnAddress s := rfl
@[simp] theorem aluOperands_setFl : aluOperands (s.setFl f) = aluOperands s := rfl

@[simp] theorem defaultAdvance_setFl (op : Byte) :
    defaultAdvance op (s.setFl f) = (defaultAdvance op s).setFl f := rfl

@[simp] theorem setRegValue_setFl (r v : Byte) :
    setRegValue r v (s.setFl f) = (·.setFl f) <$> setRegValue r v s := by
  unfold setRegValue writeReg
  split <;> rfl

@[simp] theorem memWrite_setFl (a : Nat) (v : Byte) :
    memWrite a v (s.setFl f) = (·.setFl f) <$> memWrite a v s := by
  unfold memWrite
  split <;> rfl

@[simp] theorem decSp_setFl : decSp (s.setFl f) = (·.setFl f) <$> decSp s := by
  by_cases h : sp s = 0x00#8
  · rw [decSp_error.2 ⟨h, rfl⟩]
    exact decSp_error.2 ⟨h, rfl⟩
  · rw [decSp_ok.2 ⟨h, rfl⟩]
    exact decSp_ok.2 ⟨h, rfl⟩

@[simp] theorem incSp_setFl : incSp (s.setFl f) = (·.setFl f) <$> incSp s := by
  by_cases h : sp s = 0xFF#8
  · rw [incSp_error.2 ⟨h, rfl⟩]
    exact incSp_error.2 ⟨h, rfl⟩
  · rw [incSp_ok.2 ⟨h, rfl⟩]
    exact incSp_ok.2 ⟨h, rfl⟩

@[simp] theorem jumpTo_setFl (r : Byte) : jumpTo r (s.setFl f) = (·.setFl f) <$> jumpTo r s := by
  simp [jumpTo]

/-- An instruction whose effects commute with `setFl` answers alike from both values of FL, error or not. -/
theorem commit_setFl {body body' : Except FatalError State} (hb : body' = (·.setFl f) <$> body)
    (h : commit s body = .next t) : commit (s.setFl f) body' = .next (t.setFl f) := by
  subst hb
  cases body with
  | ok u => cases h; rfl
  | error e => cases h; rfl

/-- FL's only reading is JEQ's and JNE's, of bit 0, and nothing but CMP writes it: from another value of FL that they
cannot tell apart the other instructions do the same, and carry that value along. -/
theorem exec_setFl (hcmp : ∀ a b, i ≠ .cmp a b) (hread : (∀ r, i ≠ .jeq r ∧ i ≠ .jne r) ∨ flagE f = flagE s.fl)
    (h : exec i s = .next t) : exec i (s.setFl f) = .next (t.setFl f) := by
  cases i with
  | hlt => cases h; rfl
  | ret => exact commit_setFl (by simp) h
  | push r => exact commit_setFl (by simp) h
  | pop r => exact commit_setFl (by simp) h
  | prn r => exact commit_setFl (by simp) h
  | call r => exact commit_setFl (by simp) h
  | jmp r => exact commit_setFl (by simp) h
  | jeq r =>
    have hE : flagE f = flagE s.fl := hread.resolve_left fun hr => (hr r).1 rfl
    refine commit_setFl ?_ h
    simp only [State.setFl_fl, hE]
    split
    · simp
    · rfl
  | jne r =>
    have hE : flagE f = flagE s.fl := hread.resolve_left fun hr => (hr r).2 rfl
    refine commit_setFl ?_ h
    simp only [State.setFl_fl, hE]
    split
    · rfl
    · simp
  | ldi r imm => exact commit_setFl (by simp) h
  | add a b => exact commit_setFl (by simp) h
  | mul a b => exact commit_setFl (by simp) h
  | cmp a b => exact absurd rfl (hcmp a b)

/-- CMP does not read FL: it completes in the same state, or raises the same error and carries FL along. -/
theorem exec_cmp_setFl {a b : Byte} (f : Byte) (h : exec (.cmp a b) s = .next t) :
    exec (.cmp a b) (s.setFl f) = .next t ∨
    (∃ e, t = s.setRun (.faulted e)) ∧ exec (.cmp a b) (s.setFl f) = .next (t.setFl f) := by
  obtain ⟨u, hu, hr⟩ | ⟨e, he, hr⟩ := commit_cases h
  · cases hr
    exact .inl (congrArg (commit (s.setFl f)) hu)
  · cases hr
    exact .inr ⟨⟨e, rfl⟩, congrArg (commit (s.setFl f)) he⟩

/-! ## The statements -/

/-- Settles O21: FL is CMP's alone to write, and no instruction's registers, memory or output depend on it. -/
theorem onlyCmpWritesFl : Obligations.OnlyCmpWritesFl := by
  refine ⟨fun i s t h => exec_fl_cases h, fun a b s t _ h hrun => ?_, fun s t => step_changes_fl, fun i s t f h => ?_⟩
  · have hfl : t.fl = 0b100#8 ∨ t.fl = 0b010#8 ∨ t.fl = 0b001#8 := by
      obtain ⟨_, _, _, rfl⟩ := completed_of_running h hrun
      exact compareFlags_cases _ _
    refine ⟨hfl, fun f => ?_⟩
    obtain hx | ⟨⟨e, rfl⟩, -⟩ := exec_cmp_setFl f h
    · exact hx
    · simp at hrun
  · by_cases hbr : ∃ r, i = .jeq r ∨ i = .jne r
    · obtain ⟨t', ht'⟩ := exec_next i (s.setFl f)
      obtain ⟨hr, hm, ho⟩ := branch_keeps hbr h
      obtain ⟨hr', hm', ho'⟩ := branch_keeps hbr ht'
      exact ⟨t', ht', hr'.trans hr.symm, hm'.trans hm.symm, ho'.trans ho.symm⟩
    · by_cases hcmp : ∃ a b, i = .cmp a b
      · obtain ⟨a, b, rfl⟩ := hcmp
        obtain hx | ⟨-, hx⟩ := exec_cmp_setFl f h <;> exact ⟨_, hx, rfl, rfl, rfl⟩
      · have hx := exec_setFl (f := f) (by simpa using hcmp) (.inl (by simpa using hbr)) h
        exact ⟨_, hx, rfl, rfl, rfl⟩

/-- Settles O22: CMP overwrites FL, the branches compare bit 0 alone, and every other instruction carries FL along. -/
theorem onlyEqualBitIsRead : Obligations.OnlyEqualBitIsRead := by
  intro i s t f h hread
  by_cases hcmp : ∃ a b, i = .cmp a b
  · obtain ⟨a, b, rfl⟩ := hcmp
    obtain hx | ⟨-, hx⟩ := exec_cmp_setFl f h
    · exact ⟨t, hx, rfl, .inr ⟨rfl, a, b, rfl⟩⟩
    · exact ⟨_, hx, rfl, .inl rfl⟩
  · exact ⟨_, exec_setFl (by simpa using hcmp) hread h, rfl, .inl rfl⟩

/-- Settles O24: the default advance of `Frame.pc`, with each opcode's operand count put in. -/
theorem defaultAdvancePerInstruction : Obligations.DefaultAdvancePerInstruction := by
  refine ⟨fun i s t _ h hrun hsets => ?_, fun a b => by simp [opcodeOf], fun s t h => by cases h; rfl⟩
  have hne : i ≠ .hlt := by
    rintro rfl
    cases h
    simp at hrun
  have hpc := (completed_of_running h hrun).frame.pc hsets hne
  refine ⟨hpc, ?_, ?_⟩
  · rintro a b (rfl | rfl | rfl | rfl) <;> simpa [opcodeOf] using hpc
  · rintro r (rfl | rfl | rfl) <;> simpa [opcodeOf] using hpc

/-- Settles O26: the frame of a completed instruction; one that raises an error keeps every register. -/
theorem registerFrame : Obligations.RegisterFrame :=
  fun _ _ _ h => ⟨fun _ hk hd => exec_keeps_regs h hk hd, exec_keeps_ir h⟩

end Sys2Proof.Machine

/-! The proofs of the statements of 20_memory.md: what an instruction stores, that it depends on no byte of memory but
through POP and RET, and that a fetch sees the store before it. The frame is read off `Completed`; that memory is not read
is shown up to memory, which a store makes differ, and the frame then says what memory is. -/

namespace Sys2Proof.Machine

variable {i : Instr} {s t : State} {m : Memory}

/-! ## What an instruction stores -/

theorem storedAddress_push {r : Byte} (h : decSp s = .ok t) : storedAddress (.push r) s = some (stackTop t) := by
  simp [storedAddress, h]

theorem storedAddress_call {r : Byte} (h : decSp s = .ok t) : storedAddress (.call r) s = some (stackTop t) := by
  simp [storedAddress, h]

/-- Memory after a completed instruction: as before, or with the one cell written that `storedAddress` names. -/
theorem Completed.mem_cases (h : Completed i s t) :
    t.mem = s.mem ∨ ∃ a v, storedAddress i s = some a ∧ t.mem = s.mem.write a v := by
  cases i with
  | push r =>
    obtain ⟨_, s1, h1, _, rfl⟩ := h
    obtain ⟨_, rfl⟩ := decSp_ok.1 h1
    exact .inr ⟨_, _, storedAddress_push h1, rfl⟩
  | call r =>
    obtain ⟨_, s1, h1, _, rfl⟩ := h
    obtain ⟨_, rfl⟩ := decSp_ok.1 h1
    exact .inr ⟨_, _, storedAddress_call h1, rfl⟩
  | pop r =>
    obtain ⟨_, _, s2, h2, rfl⟩ := h
    obtain ⟨_, rfl⟩ := incSp_ok.1 h2
    exact .inl rfl
  | hlt =>
    obtain rfl := h
    exact .inl rfl
  | ret =>
    obtain ⟨_, rfl⟩ := h
    exact .inl rfl
  | prn r | jmp r | ldi r imm =>
    obtain ⟨_, _, rfl⟩ := h
    exact .inl rfl
  | add a b | mul a b | cmp a b =>
    obtain ⟨_, _, _, rfl⟩ := h
    exact .inl rfl
  | jeq r | jne r =>
    obtain ⟨_, _, _, rfl⟩ | ⟨_, rfl⟩ := h <;> exact .inl rfl

theorem exec_mem_cases (h : exec i s = .next t) :
    t.mem = s.mem ∨ ∃ a v, storedAddress i s = some a ∧ t.mem = s.mem.write a v := by
  obtain hc | ⟨e, rfl⟩ := exec_next_cases h
  · exact hc.mem_cases
  · exact .inl rfl

theorem exec_keeps_mem (h : exec i s = .next t) (hn : storedAddress i s = none) : t.mem = s.mem := by
  obtain hm | ⟨a, v, ha, -⟩ := exec_mem_cases h
  · exact hm
  · simp [hn] at ha

/-! ## Only POP and RET read a byte of memory

The operand reads look at their address alone, and every other operation commutes with `setMem` up to memory. -/

@[simp] theorem setMem_setMem (s : State) (m n : Memory) : (s.setMem m).setMem n = s.setMem n := rfl
@[simp] theorem setPc_setMem (s : State) (n : Nat) (m : Memory) : (s.setMem m).setPc n = (s.setPc n).setMem m := rfl
@[simp] theorem emit_setMem (s : State) (v : Byte) (m : Memory) : (s.setMem m).emit v = (s.emit v).setMem m := rfl
@[simp] theorem setFl_setMem (s : State) (f : Byte) (m : Memory) : (s.setMem m).setFl f = (s.setFl f).setMem m := rfl

@[simp] theorem regValue_setMem (r : Byte) : regValue r (s.setMem m) = regValue r s := rfl
@[simp] theorem stackTop_setMem : stackTop (s.setMem m) = stackTop s := rfl
@[simp] theorem returnAddress_setMem : returnAddress (s.setMem m) = returnAddress s := rfl

@[simp] theorem defaultAdvance_setMem (op : Byte) :
    defaultAdvance op (s.setMem m) = (defaultAdvance op s).setMem m := rfl

/-- An operand read whose byte is dropped can raise, by its address, and no more. -/
@[simp] theorem fetchOperand_setMem_bind {α : Type} (k : Nat) (x : Except FatalError α) :
    (fetchOperand k (s.setMem m) >>= fun _ => x) = fetchOperand k s >>= fun _ => x := by
  by_cases h : s.pc + k < 256
  · rw [fetchOperand_of_lt h, fetchOperand_of_lt (s := s.setMem m) h, ok_bind, ok_bind]
  · have hge : 256 ≤ s.pc + k := by omega
    rw [fetchOperand_of_ge hge, fetchOperand_of_ge (s := s.setMem m) hge]
    rfl

@[simp] theorem aluOperands_setMem : aluOperands (s.setMem m) = aluOperands s := by simp [aluOperands]

@[simp] theorem setRegValue_setMem (r v : Byte) :
    setRegValue r v (s.setMem m) = (·.setMem m) <$> setRegValue r v s := by
  unfold setRegValue writeReg
  split <;> rfl

@[simp] theorem decSp_setMem : decSp (s.setMem m) = (·.setMem m) <$> decSp s := by
  by_cases h : sp s = 0x00#8
  · rw [decSp_error.2 ⟨h, rfl⟩]
    exact decSp_error.2 ⟨h, rfl⟩
  · rw [decSp_ok.2 ⟨h, rfl⟩]
    exact decSp_ok.2 ⟨h, rfl⟩

@[simp] theorem jumpTo_setMem (r : Byte) : jumpTo r (s.setMem m) = (·.setMem m) <$> jumpTo r s := by
  simp [jumpTo]

/-- A store where SP points does not raise. -/
@[simp] theorem memWrite_stackTop (v : Byte) :
    memWrite (stackTop s) v t = .ok (t.setMem (t.mem.write (stackTop s) v)) := memWrite_of_lt (stackTop_lt s)

/-- An instruction whose effects from two memories are the same up to memory answers alike up to memory. -/
theorem commit_setMem {body body' : Except FatalError State}
    (hb : (·.setMem []) <$> body' = (·.setMem []) <$> body) (h : commit s body = .next t) :
    ∃ m', commit (s.setMem m) body' = .next (t.setMem m') := by
  cases body with
  | ok u =>
    cases h
    cases body' with
    | ok u' =>
      have hu : u'.setMem [] = t.setMem [] := Except.ok.inj hb
      have hu' : u' = t.setMem u'.mem := congrArg (·.setMem u'.mem) hu
      exact ⟨u'.mem, congrArg Host.Outcome.next hu'⟩
    | error e => cases hb
  | error e =>
    cases h
    cases body' with
    | ok u' => cases hb
    | error e' => cases hb; exact ⟨m, rfl⟩

/-- All but POP and RET do the same to everything but memory, whatever memory holds. -/
theorem exec_setMem (m : Memory) (hpop : ∀ r, i ≠ .pop r) (hret : i ≠ .ret) (h : exec i s = .next t) :
    ∃ m', exec i (s.setMem m) = .next (t.setMem m') := by
  cases i with
  | hlt => cases h; exact ⟨m, rfl⟩
  | ret => exact absurd rfl hret
  | pop r => exact absurd rfl (hpop r)
  | push r => exact commit_setMem (by simp) h
  | prn r => exact commit_setMem (by simp) h
  | call r => exact commit_setMem (by simp) h
  | jmp r => exact commit_setMem (by simp) h
  | jeq r =>
    refine commit_setMem ?_ h
    cases hE : flagE s.fl <;> simp [hE]
  | jne r =>
    refine commit_setMem ?_ h
    cases hE : flagE s.fl <;> simp [hE]
  | ldi r imm => exact commit_setMem (by simp) h
  | add a b => exact commit_setMem (by simp) h
  | mul a b => exact commit_setMem (by simp) h
  | cmp a b => exact commit_setMem (by simp) h

/-- An instruction that neither reads nor stores a byte carries along whatever memory it is given. -/
theorem exec_setMem_of_storedAddress_none (m : Memory) (hpop : ∀ r, i ≠ .pop r) (hret : i ≠ .ret)
    (hn : ∀ u, storedAddress i u = none) (h : exec i s = .next t) : exec i (s.setMem m) = .next (t.setMem m) := by
  obtain ⟨m', hx⟩ := exec_setMem m hpop hret h
  obtain rfl : m' = m := exec_keeps_mem hx (hn _)
  exact hx

/-! ## A step, by what it fetches -/

theorem rejectAlu_faults (op : Byte) (s : State) : ∃ e, rejectAlu op s = .next (s.setRun (.faulted e)) := by
  obtain ⟨u, hu, -⟩ | ⟨e, -, he⟩ := commit_cases (rfl : rejectAlu op s = rejectAlu op s)
  · simp [bind_ok] at hu
  · exact ⟨e, he⟩

/-- A RUNNING machine with PC in memory answers a state whose IR holds the byte at PC. -/
theorem step_fetches (hrun : s.run = .running) (hpc : s.pc < 256) :
    ∃ u, step s = .next u ∧ u.ir = s.mem.read s.pc := by
  obtain ⟨hr, -⟩ | ⟨e, hr, -⟩ | ⟨-, hge, -⟩ | ⟨-, -, f, rfl, hr⟩ := step_cases (rfl : step s = step s)
  · simp [hrun] at hr
  · simp [hrun] at hr
  · omega
  · obtain ⟨i, -, hx⟩ | ⟨op, -, hx⟩ | ⟨op, -, hx⟩ := hr
    · obtain ⟨u, hu⟩ := exec_next i (s.setIr (s.mem.read s.pc))
      exact ⟨u, hx.trans hu, exec_keeps_ir hu⟩
    · obtain ⟨e, he⟩ := rejectAlu_faults op (s.setIr (s.mem.read s.pc))
      exact ⟨_, hx.trans he, rfl⟩
    · exact ⟨_, hx.trans (raise_eq _ _), rfl⟩

/-- Where the fetched bytes decode, the step is the instruction's meaning. -/
theorem step_of_decodeFetched (hrun : s.run = .running) (hpc : s.pc < 256)
    (hd : decodeFetched (s.setIr (s.mem.read s.pc)) = .ok i) : step s = exec i (s.setIr (s.mem.read s.pc)) := by
  simp [step, hrun, cycle, fetch_ok.2 ⟨hpc, rfl⟩, execute, hd]

theorem decode_opPUSH (b1 b2 : Byte) : decode opPUSH b1 b2 = .ok (.push b1) := by
  have hne : opPUSH ≠ opHLT := by decide
  simp [decode, hne, Handler.instr]

theorem step_push {r : Byte} (hrun : s.run = .running) (h : HoldsAt s s.pc (encode (.push r))) :
    step s = exec (.push r) (s.setIr opPUSH) := by
  obtain ⟨hlen, hbytes⟩ := h
  have hfit : s.pc + 2 ≤ 256 := hlen
  have hop : s.mem.read s.pc = opPUSH := hbytes 0 Nat.two_pos
  have harg : s.mem.read (s.pc + 1) = r := hbytes 1 Nat.one_lt_two
  rw [← hop]
  refine step_of_decodeFetched hrun (by omega) ?_
  rw [decodeFetched, operandByte_of_lt (by simp; omega), State.setIr_ir, hop]
  simp [decode_opPUSH, harg]

/-! ## PUSH, where it completes -/

/-- PUSH completes where `Completed` says it does. -/
theorem exec_push_of_completed {r : Byte} (h : Completed (.push r) s t) : exec (.push r) s = .next t := by
  obtain ⟨hpc, s1, h1, hr, rfl⟩ := h
  have hpc1 : s1.pc = s.pc := by
    obtain ⟨_, rfl⟩ := decSp_ok.1 h1
    rfl
  simp [exec, execPush, fetchOperand_of_lt hpc, h1, regValue, readReg_of_lt hr, defaultAdvance, hpc1]

/-- What a completed PUSH does to PC, to the run state and to the cell below the old top of the stack. -/
theorem Completed.push_effect {r : Byte} (h : Completed (.push r) s t) (hwf : s.mem.wf = true) (hr : r.toNat < 8) :
    t.pc = s.pc + 2 ∧ t.run = s.run ∧ t.mem.read (stackTop s - 1) = t.regs[r.toNat] := by
  obtain ⟨_, s1, h1, _, rfl⟩ := h
  rw [← decSp_stackTop h1]
  obtain ⟨_, rfl⟩ := decSp_ok.1 h1
  exact ⟨rfl, rfl, Memory.read_write_same _ _ hwf⟩

/-! ## The statements -/

/-- Settles O27: an instruction leaves memory as it is or writes the one cell `storedAddress` names. -/
theorem memoryFrame : Obligations.MemoryFrame := by
  refine fun i s t h => ⟨fun b hb => ?_, exec_keeps_mem h⟩
  obtain hm | ⟨a, v, ha, hm⟩ := exec_mem_cases h
  · rw [hm]
  · have hne : b ≠ a := fun hba => hb (hba ▸ ha)
    rw [hm, Memory.read_write_other s.mem v hne]

/-- Settles O34: the ALU instructions neither read nor store; the others leave the same state up to memory. -/
theorem onlyPopAndRetReadMemoryData : Obligations.OnlyPopAndRetReadMemoryData := by
  intro i s t m h
  refine ⟨fun a b halu => ?_, fun hpop hret => exec_setMem m hpop hret h⟩
  obtain rfl | rfl | rfl := halu <;>
    exact exec_setMem_of_storedAddress_none m (by simp) (by simp) (fun _ => rfl) h

/-- Settles O53: PUSH stores at the address it leaves PC at, and the next fetch reads that cell. -/
theorem storeSeenByNextFetch : Obligations.StoreSeenByNextFetch := by
  intro r s hr hrun hwf hbytes hsp hnext
  have hpush := step_push hrun hbytes
  have hsp0 : sp (s.setIr opPUSH) ≠ 0x00#8 := fun h0 => by simp [show s.regs[7] = 0x00#8 from h0] at hsp
  have hpc : s.pc + 2 < 256 := by omega
  obtain ⟨t, hc⟩ : ∃ t, Completed (.push r) (s.setIr opPUSH) t :=
    ⟨_, Nat.lt_of_succ_lt hpc, _, decSp_ok.2 ⟨hsp0, rfl⟩, hr, rfl⟩
  obtain ⟨htpc, htrun, htmem⟩ := hc.push_effect hwf hr
  obtain ⟨u, hu, hir⟩ := step_fetches (htrun.trans hrun) (htpc.trans_lt hpc)
  refine ⟨t, u, hpush.trans (exec_push_of_completed hc), htpc, hu, ?_⟩
  have htop : stackTop (s.setIr opPUSH) - 1 = t.pc := hnext.trans htpc.symm
  rw [hir, ← htop, htmem]

end Sys2Proof.Machine

/-! The proofs of the statements of 30_encoding.md, one from each direction of `decode_eq_ok_iff`: the decoder answers
an instruction exactly where it is handed the instruction's own opcode byte and, first, its own operand bytes. -/

namespace Sys2Proof

open Machine (decode_ok_opcode)

variable {i : Instr} {op b1 b2 : Byte}

/-! ## The operands of an instruction -/

theorem length_operandsOf (i : Instr) : (operandsOf i).length = operandCount (opcodeOf i) := by
  cases i <;> simp [operandsOf, opcodeOf]

theorem length_operandsOf_le (i : Instr) : (operandsOf i).length ≤ 2 := by
  cases i <;> simp [operandsOf]

theorem AluOp.operandsOf_instr (g : AluOp) (b1 b2 : Byte) : operandsOf (g.instr b1 b2) = [b1, b2] := by
  cases g <;> rfl

theorem Handler.operandsOf_instr_prefix (g : Handler) (b1 b2 : Byte) : operandsOf (g.instr b1 b2) <+: [b1, b2] := by
  cases g <;> simp [Handler.instr, operandsOf]

/-! ## What the decoder answers -/

/-- The operands of a decoded instruction are the first of the two bytes after its opcode. -/
theorem decode_ok_operands (h : decode op b1 b2 = .ok i) : operandsOf i <+: [b1, b2] := by
  unfold decode at h
  split at h
  · cases h; exact List.nil_prefix
  · split at h
    · split at h
      · cases h; rw [AluOp.operandsOf_instr]
      · cases h
    · split at h
      · cases h; exact Handler.operandsOf_instr_prefix _ b1 b2
      · cases h

/-- HLT alone passes the decoder's halt test. -/
theorem opcodeOf_ne_opHLT (h : i ≠ .hlt) : opcodeOf i ≠ opHLT := by
  cases i with
  | hlt => exact absurd rfl h
  | _ => simp only [opcodeOf]; decide

/-- By format: an instruction takes no operand byte, the first, or both. -/
theorem decode_opcodeOf (h : operandsOf i <+: [b1, b2]) : decode (opcodeOf i) b1 b2 = .ok i := by
  obtain rfl | hhlt := eq_or_ne i .hlt
  · rfl
  rw [decode, if_neg (opcodeOf_ne_opHLT hhlt)]
  cases i with
  | hlt => exact absurd rfl hhlt
  | ret => simp [opcodeOf, Handler.instr]
  | push a | pop a | prn a | call a | jmp a | jeq a | jne a =>
    obtain rfl : a = b1 := by simpa [operandsOf] using h
    simp [opcodeOf, Handler.instr]
  | ldi a b | add a b | mul a b | cmp a b =>
    obtain ⟨rfl, rfl⟩ : a = b1 ∧ b = b2 := by simpa [operandsOf] using h
    simp [opcodeOf, Handler.instr, AluOp.instr]

theorem decode_eq_ok_iff : decode op b1 b2 = .ok i ↔ op = opcodeOf i ∧ operandsOf i <+: [b1, b2] :=
  ⟨fun h => ⟨decode_ok_opcode h, decode_ok_operands h⟩, fun ⟨hop, hargs⟩ => hop ▸ decode_opcodeOf hargs⟩

/-! ## The decoder on a list -/

theorem decodeList_cons_of_decode {bytes : List Byte}
    (h : decode op (bytes.getD 0 Config.absentOperand) (bytes.getD 1 Config.absentOperand) = .ok i)
    (hlen : (operandsOf i).length ≤ bytes.length) :
    decodeList (op :: bytes) = .ok (i, bytes.drop (operandsOf i).length) := by
  simp only [decodeList, h, if_pos hlen]

/-- At most two bytes that begin a list begin its first two, whatever stands for those that are missing. -/
theorem prefix_getD_append {l : List Byte} (h : l.length ≤ 2) (rest : List Byte) (d : Byte) :
    l <+: [(l ++ rest).getD 0 d, (l ++ rest).getD 1 d] := by
  match l, h with
  | [], _ => exact List.nil_prefix
  | [_], _ => simp
  | [_, _], _ => simp

theorem decodeList_encode_append (i : Instr) (rest : List Byte) : decodeList (encode i ++ rest) = .ok (i, rest) := by
  have hdec := decode_opcodeOf (prefix_getD_append (length_operandsOf_le i) rest Config.absentOperand)
  have hlist := decodeList_cons_of_decode hdec (by simp)
  rwa [List.drop_left] at hlist

/-! ## The statements -/

/-- Settles O1: the decoder needs an instruction's own opcode and operand bytes, which are what the encoder writes. -/
theorem decodeOfEncode : Obligations.DecodeOfEncode :=
  ⟨decodeList_encode_append, fun _ _ _ => decode_opcodeOf⟩

/-- Settles O2: the operands of what decodes begin the bytes after the opcode, and `operand_count` is their number. -/
theorem encodeOfDecode : Obligations.EncodeOfDecode := by
  intro op b1 b2 i h
  obtain ⟨rfl, hargs⟩ := decode_eq_ok_iff.1 h
  have htake : operandsOf i = [b1, b2].take (operandCount (opcodeOf i)) :=
    length_operandsOf i ▸ List.prefix_iff_eq_take.1 hargs
  rw [encode, Nat.add_comm, List.take_succ_cons, ← htake]

end Sys2Proof

/-! The proofs of the statements of 40_execution_cycle.md. A step that records no error has completed the one instruction
whose opcode byte stands at PC; which instructions go on, which one halts, and where PC goes are read off `Completed`. -/

namespace Sys2Proof.Machine

variable {i : Instr} {s t : State}

/-- HLT is the only instruction that moves the run state where it completes. -/
theorem Completed.keeps_run (h : Completed i s t) (hne : i ≠ .hlt) : t.run = s.run := by
  cases i with
  | hlt => exact absurd rfl hne
  | push r | call r =>
    obtain ⟨_, s1, h1, _, rfl⟩ := h
    obtain ⟨_, rfl⟩ := decSp_ok.1 h1
    rfl
  | pop r =>
    obtain ⟨_, _, s2, h2, rfl⟩ := h
    obtain ⟨_, rfl⟩ := incSp_ok.1 h2
    rfl
  | ret =>
    obtain ⟨_, rfl⟩ := h
    rfl
  | prn r | jmp r | ldi r imm =>
    obtain ⟨_, _, rfl⟩ := h
    rfl
  | add a b | mul a b | cmp a b =>
    obtain ⟨_, _, _, rfl⟩ := h
    rfl
  | jeq r | jne r => obtain ⟨_, _, _, rfl⟩ | ⟨_, rfl⟩ := h <;> rfl

/-- A completed instruction leaves the machine HALTED where it is HLT, and only there. -/
theorem Completed.halted_iff (h : Completed i s t) (hrun : s.run = .running) : t.run = .halted ↔ i = .hlt := by
  constructor
  · intro ht
    by_contra hne
    simp [h.keeps_run hne, hrun] at ht
  · rintro rfl
    obtain rfl := h
    rfl

/-- A step that answers a state records an error in it, or it has completed the instruction that the byte at PC is the
opcode of. -/
theorem step_next_cases (h : step s = .next t) :
    (∃ e, t.run = .faulted e) ∨ ∃ i, s.mem.read s.pc = opcodeOf i ∧ Completed i (s.setIr (s.mem.read s.pc)) t := by
  obtain ⟨-, hr⟩ | ⟨e, -, hr⟩ | ⟨-, -, hr⟩ | ⟨-, -, f, rfl, hr⟩ := step_cases h
  · cases hr
  · cases hr
  · cases hr
    exact .inl ⟨_, rfl⟩
  · obtain ⟨i, hd, hx⟩ | ⟨op, -, hx⟩ | ⟨op, -, hx⟩ := hr
    · obtain hc | ⟨e, rfl⟩ := exec_next_cases hx.symm
      · exact .inr ⟨i, decode_ok_opcode hd, hc⟩
      · exact .inl ⟨e, rfl⟩
    · obtain ⟨e, he⟩ := rejectAlu_faults op (s.setIr (s.mem.read s.pc))
      cases hx.trans he
      exact .inl ⟨e, rfl⟩
    · cases hx
      exact .inl ⟨_, rfl⟩

/-- The halt test looks at the opcode byte alone: no operand byte, and no field of the opcode. -/
theorem step_of_opHLT (hrun : s.run = .running) (hpc : s.pc < 256) (hop : s.mem.read s.pc = opHLT) :
    step s = .next ((s.setIr opHLT).setRun .halted) := by
  have hd : decodeFetched (s.setIr (s.mem.read s.pc)) = .ok .hlt := by
    rw [hop]
    exact decode_opcodeOf (i := .hlt) List.nil_prefix
  rw [step_of_decodeFetched hrun hpc hd, hop]
  rfl

/-! ## The statements -/

/-- Settles O10: HLT's opcode byte at PC halts, and the only completed instruction that halts is HLT. -/
theorem haltTestComesFirst : Obligations.HaltTestComesFirst := by
  refine fun s hrun hpc => ⟨step_of_opHLT hrun (Nat.lt_succ_of_le hpc), fun t h ht => ?_⟩
  obtain ⟨e, he⟩ | ⟨i, hop, hc⟩ := step_next_cases h
  · simp [ht] at he
  · obtain rfl := (hc.halted_iff hrun).1 ht
    exact hop

/-- Settles O23: a machine that goes on has completed the instruction at PC, with the advance of `Frame.pc`. -/
theorem defaultAdvanceOfStep : Obligations.DefaultAdvanceOfStep := by
  intro s t hrun h ht
  obtain ⟨e, he⟩ | ⟨i, hop, hc⟩ := step_next_cases h
  · simp [ht] at he
  · have hne : i ≠ .hlt := fun hi => by simp [(hc.halted_iff hrun).2 hi] at ht
    refine ⟨hc.frame.ir, fun hsets => ?_⟩
    rw [hop] at hsets ⊢
    exact hc.frame.pc hsets hne

end Sys2Proof.Machine

/-! The proofs of the statements of 43_stack.md. The step at an encoded instruction is that instruction's meaning, so a
pair of instructions is read off the two meanings, where the first store leaves the second's bytes alone. -/

namespace Sys2Proof.Machine

variable {i : Instr} {s t : State} {a b : Nat} {v r d : Byte} {xs ys : List Byte}

/-! ## Bytes in memory -/

theorem HoldsAt.of_append (h : HoldsAt s a (xs ++ ys)) : HoldsAt s a xs ∧ HoldsAt s (a + xs.length) ys := by
  obtain ⟨hlen, hbytes⟩ := h
  rw [List.length_append] at hlen
  refine ⟨⟨by omega, fun k hk => ?_⟩, by omega, fun k hk => ?_⟩
  · rw [hbytes k (by simp; omega), List.getElem_append_left hk]
  · rw [Nat.add_assoc, hbytes (xs.length + k) (by simpa), List.getElem_append_right (by omega)]
    simp

/-- A store outside the bytes leaves them where they stand. -/
theorem HoldsAt.of_write (h : HoldsAt s a xs) (hm : t.mem = s.mem.write b v)
    (hne : ∀ k < xs.length, a + k ≠ b) : HoldsAt t a xs :=
  ⟨h.1, fun k hk => by rw [hm, Memory.read_write_other _ _ (hne k hk), h.2 k hk]⟩

/-! ## The step at an encoded instruction -/

/-- The decoder is handed the operand bytes that stand after the opcode. -/
theorem operandsOf_prefix_of_holdsAt (h : HoldsAt s s.pc (encode i)) :
    operandsOf i <+: [operandByte 1 s, operandByte 2 s] := by
  obtain ⟨hfit, hbytes⟩ := h
  have harg : ∀ k (hk : k < (operandsOf i).length), operandByte (k + 1) s = (operandsOf i)[k] := fun k hk => by
    have hlt : s.pc + (k + 1) < 256 := by
      simp only [encode, List.length_cons] at hfit
      omega
    rw [operandByte_of_lt hlt]
    exact hbytes (k + 1) (Nat.succ_lt_succ hk)
  refine List.prefix_iff_getElem.2 ⟨length_operandsOf_le i, fun k hk => ?_⟩
  match k with
  | 0 => exact (harg 0 hk).symm
  | 1 => exact (harg 1 hk).symm
  | k + 2 => exact absurd (hk.trans_le (length_operandsOf_le i)) (by omega)

theorem step_of_holdsAt (hrun : s.run = .running) (h : HoldsAt s s.pc (encode i)) :
    step s = exec i (s.setIr (opcodeOf i)) := by
  have hop : s.mem.read s.pc = opcodeOf i := h.2 0 (Nat.succ_pos _)
  have hpc : s.pc < 256 := (Nat.lt_add_of_pos_right (Nat.succ_pos _)).trans_le h.1
  rw [← hop]
  refine step_of_decodeFetched hrun hpc ?_
  rw [decodeFetched, State.setIr_ir, hop]
  exact decode_opcodeOf (operandsOf_prefix_of_holdsAt h)

/-! ## PUSH and POP of a register other than SP -/

/-- The state after a PUSH of the value v (43_stack.md R121); `exec_push_of_lt_seven` ties it to the instruction. -/
def afterPush (v : Byte) (s : State) : State :=
  ((setSp (lowByte (stackTop s - 1)) s).setMem (s.mem.write (stackTop s - 1) v)).setPc (s.pc + 2)

theorem stackTop_afterPush (v : Byte) (s : State) : stackTop (afterPush v s) = stackTop s - 1 := by
  have hlt : stackTop s - 1 < 256 := (Nat.sub_le _ _).trans_lt (stackTop_lt s)
  exact (congrArg BitVec.toNat (sp_setSp _ s)).trans ((lowByte_toNat _).trans (Nat.mod_eq_of_lt hlt))

theorem lowByte_stackTop (s : State) : lowByte (stackTop s) = sp s := by simp [lowByte, stackTop]

theorem read_afterPush (v : Byte) (h : s.mem.wf = true) : (afterPush v s).mem.read (stackTop s - 1) = v :=
  Memory.read_write_same _ v h

theorem exec_push_of_lt_seven (hpc : s.pc + 1 < 256) (hsp : sp s ≠ 0x00#8) (hr : r.toNat < 7) :
    exec (.push r) s = .next (afterPush s.regs[r.toNat] s) := by
  have h1 : decSp s = .ok (setSp (lowByte (stackTop s - 1)) s) := decSp_ok.2 ⟨hsp, rfl⟩
  have hkeep : (setSp (lowByte (stackTop s - 1)) s).regs[r.toNat] = s.regs[r.toNat] :=
    Vector.getElem_set_ne (by decide) (by omega) hr.ne'
  refine exec_push_of_completed ⟨hpc, _, h1, hr.trans (by decide), ?_⟩
  rw [decSp_stackTop h1, hkeep]
  rfl

/-- POP completes where `Completed` says it does. -/
theorem exec_pop_of_completed (h : Completed (.pop r) s t) : exec (.pop r) s = .next t := by
  obtain ⟨hpc, hr, s2, h2, rfl⟩ := h
  have hpc2 : s2.pc = s.pc := by
    obtain ⟨_, rfl⟩ := incSp_ok.1 h2
    rfl
  simp only [exec, execPop, fetchOperand_of_lt hpc, memRead_of_lt (stackTop_lt s), setRegValue, writeReg_of_lt hr,
    ok_bind, h2, commit_ok, defaultAdvance, hpc2, operandCount_opPOP]

theorem exec_pop_of_lt_seven (hpc : s.pc + 1 < 256) (hsp : sp s ≠ 0xFF#8) (hd : d.toNat < 7) :
    exec (.pop d) s = .next ((setSp (lowByte (stackTop s + 1))
      (s.setRegs (s.regs.set d.toNat (s.mem.read (stackTop s))))).setPc (s.pc + 2)) := by
  have hkeep : sp (s.setRegs (s.regs.set d.toNat (s.mem.read (stackTop s)))) = sp s :=
    Vector.getElem_set_ne (by omega) (by decide) hd.ne
  refine exec_pop_of_completed ⟨hpc, by omega, _, incSp_ok.2 ⟨hkeep.trans_ne hsp, rfl⟩, ?_⟩
  rw [hkeep]
  rfl

theorem step_push_of_lt_seven (hrun : s.run = .running) (h : HoldsAt s s.pc (encode (.push r))) (hsp : sp s ≠ 0x00#8)
    (hr : r.toNat < 7) : step s = .next (afterPush s.regs[r.toNat] (s.setIr opPUSH)) :=
  (step_of_holdsAt hrun h).trans (exec_push_of_lt_seven (s := s.setIr opPUSH) (Nat.lt_of_succ_le h.1) hsp hr)

theorem step_pop_of_lt_seven (hrun : s.run = .running) (h : HoldsAt s s.pc (encode (.pop d))) (hsp : sp s ≠ 0xFF#8)
    (hd : d.toNat < 7) : step s = .next ((setSp (lowByte (stackTop s + 1))
      ((s.setIr opPOP).setRegs (s.regs.set d.toNat (s.mem.read (stackTop s))))).setPc (s.pc + 2)) :=
  (step_of_holdsAt hrun h).trans (exec_pop_of_lt_seven (s := s.setIr opPOP) (Nat.lt_of_succ_le h.1) hsp hd)

/-- Writing a register other than SP while SP is moved and moved back is writing that register. -/
theorem set_between_sp_moves (x : Vector Byte 8) (w v : Byte) {k : Nat} (hk : k < 7) :
    ((x.set 7 w).set k v).set 7 x[7] = x.set k v := by
  ext j hj
  by_cases h7 : 7 = j
  · subst h7
    simp [hk.ne]
  · by_cases hkj : k = j <;> simp [h7, hkj]

/-! ## The statements -/

/-- Settles O51: the POP's bytes are not the pushed cell, so the second step is that POP, of the cell just written. -/
theorem stackRoundTrip : Obligations.StackRoundTrip := by
  intro r d s hr hd hrun hwf hbytes hsp hne2 hne3
  obtain ⟨hpush, hpop⟩ := hbytes.of_append
  have hsp0 : sp s ≠ 0x00#8 := fun h0 => by simp [show s.regs[7] = 0x00#8 from h0] at hsp
  have hstep := step_push_of_lt_seven hrun hpush hsp0 hr
  generalize ht : afterPush s.regs[r.toNat] (s.setIr opPUSH) = t at hstep
  have htop : stackTop t = stackTop s - 1 := ht ▸ stackTop_afterPush _ _
  have hback : stackTop t + 1 = stackTop s := htop ▸ Nat.sub_add_cancel hsp
  have hread : t.mem.read (stackTop s - 1) = s.regs[r.toNat] := ht ▸ read_afterPush _ hwf
  have hpopAt : HoldsAt t t.pc (encode (.pop d)) := by
    rw [← ht]
    refine hpop.of_write rfl fun k hk => ?_
    have hk2 : k < 2 := hk
    show s.pc + 2 + k ≠ (s.regs[7]).toNat - 1
    omega
  have hsp255 : sp t ≠ 0xFF#8 := fun h255 => by
    have h256 : 255 + 1 = stackTop s := (congrArg (·.toNat + 1) h255).symm.trans hback
    exact absurd (stackTop_lt s) (by omega)
  refine ⟨t, _, hstep, step_pop_of_lt_seven (ht ▸ hrun) hpopAt hsp255 hd, ?_, ?_⟩
  · rw [hback, htop, hread, lowByte_stackTop, ← ht]
    refine State.ext_fields rfl ?_ rfl rfl rfl rfl rfl
    exact set_between_sp_moves _ _ _ hd
  · exact hread

end Sys2Proof.Machine

/-! The proof of the statement of 44_control_transfer.md. CALL and RET complete under the conditions `Completed` lists
for them; what CALL leaves in SP and in the cell it points at is what RET takes back. -/

namespace Sys2Proof.Machine

variable {s t : State} {r : Byte}

/-! ## The stack pointer inside its range -/

theorem sp_ne_zero_of_pos (h : 1 ≤ stackTop s) : sp s ≠ 0x00#8 :=
  fun h0 => absurd (congrArg BitVec.toNat h0) (Nat.ne_of_gt h)

/-- SP has room for an increment below any address that another SP holds. -/
theorem sp_ne_ff_of_succ_stackTop (h : stackTop t + 1 = stackTop s) : sp t ≠ 0xFF#8 := fun hff => by
  have hmax : stackTop t = 255 := congrArg BitVec.toNat hff
  have hlt := stackTop_lt s
  omega

/-! ## CALL -/

/-- CALL completes where `Completed` says it does. -/
theorem exec_call_of_completed (h : Completed (.call r) s t) : exec (.call r) s = .next t := by
  obtain ⟨hpc, s1, h1, hr, rfl⟩ := h
  have hret : returnAddress s1 = .ok (lowByte (s.pc + 2)) := by
    obtain ⟨_, rfl⟩ := decSp_ok.1 h1
    exact returnAddress_ok.2 ⟨hpc, rfl⟩
  simp only [exec, execCall, fetchOperand_of_lt (show s.pc + 1 < 256 by omega), h1, hret, ok_bind,
    memWrite_stackTop, jumpTo_ok.2 ⟨hr, rfl⟩, commit_ok, State.setMem_regs]

/-- A completed CALL jumps through its register as it leaves it, and leaves SP one lower, at the return address. -/
theorem Completed.call_effect (h : Completed (.call r) s t) (hwf : s.mem.wf = true) (hr : r.toNat < 8) :
    t.pc = (t.regs[r.toNat]).toNat ∧ stackTop t + 1 = stackTop s ∧
      (t.mem.read (stackTop t)).toNat = s.pc + 2 := by
  obtain ⟨hpc, s1, h1, _, rfl⟩ := h
  obtain ⟨hsp, rfl⟩ := decSp_ok.1 h1
  have hpos : stackTop s ≠ 0 := fun h0 => hsp (BitVec.eq_of_toNat_eq h0)
  refine ⟨rfl, ?_, ?_⟩
  · exact (congrArg (· + 1) (decSp_stackTop h1)).trans (Nat.succ_pred hpos)
  · have hread := Memory.read_write_same (stackTop (setSp (lowByte (stackTop s - 1)) s)) (lowByte (s.pc + 2)) hwf
    refine (congrArg BitVec.toNat hread).trans ?_
    rw [lowByte_toNat, Nat.mod_eq_of_lt (by omega)]

/-! ## RET -/

/-- RET completes where `Completed` says it does. -/
theorem exec_ret_of_completed (h : Completed .ret s t) : exec .ret s = .next t := by
  obtain ⟨hsp, rfl⟩ := h
  simp only [exec, execRet, memRead_of_lt (stackTop_lt s), incSp_ok.2 ⟨hsp, rfl⟩, ok_bind, commit_ok]

theorem Completed.ret_effect (h : Completed .ret s t) :
    t.pc = (s.mem.read (stackTop s)).toNat ∧ sp t = lowByte (stackTop s + 1) := by
  obtain ⟨_, rfl⟩ := h
  exact ⟨rfl, sp_setSp _ s⟩

theorem step_ret (hrun : s.run = .running) (h : HoldsAt s s.pc (encode .ret)) (hsp : sp s ≠ 0xFF#8) :
    ∃ t, step s = .next t ∧ t.pc = (s.mem.read (stackTop s)).toNat ∧ sp t = lowByte (stackTop s + 1) := by
  have hc : Completed .ret (s.setIr opRET) _ := ⟨hsp, rfl⟩
  exact ⟨_, (step_of_holdsAt hrun h).trans (exec_ret_of_completed hc), hc.ret_effect⟩

/-! ## The statement -/

/-- Settles O52: RET's increment undoes CALL's decrement, and the byte at SP between them is the return address. -/
theorem callThenReturn : Obligations.CallThenReturn := by
  intro r s hr hrun hwf hbytes hpc hsp
  obtain ⟨t, hc⟩ : ∃ t, Completed (.call r) (s.setIr opCALL) t :=
    ⟨_, Nat.lt_succ_of_le hpc, _, decSp_ok.2 ⟨sp_ne_zero_of_pos hsp, rfl⟩, hr, rfl⟩
  obtain ⟨htpc, htop, hread⟩ := hc.call_effect hwf hr
  refine ⟨t, (step_of_holdsAt hrun hbytes).trans (exec_call_of_completed hc), htpc, htop, hread, ?_⟩
  intro u hurun hret husp hucell
  have hutop : stackTop u = stackTop t := congrArg BitVec.toNat husp
  obtain ⟨v, hv, hvpc, hvsp⟩ := step_ret hurun hret (husp.trans_ne (sp_ne_ff_of_succ_stackTop htop))
  refine ⟨v, hv, ?_, ?_⟩
  · calc v.pc = (u.mem.read (stackTop u)).toNat := hvpc
      _ = (t.mem.read (stackTop t)).toNat := congrArg BitVec.toNat hucell
      _ = s.pc + 2 := hread
  · calc sp v = lowByte (stackTop u + 1) := hvsp
      _ = lowByte (stackTop s) := by rw [hutop]; exact congrArg lowByte htop
      _ = sp s := lowByte_stackTop s

end Sys2Proof.Machine

/-! The proof of the statement of 70_reset_and_hazards.md about the entry point. A load moves memory alone, so its state is
RUNNING at the PC of reset, and `step_fetches` says what the first step puts in IR. -/

namespace Sys2Proof.Machine

variable {image : List Byte} {s t : State}

/-- A load that is not refused moves memory alone off reset. -/
theorem loadImage_eq_next (h : loadImage image = .next s) :
    s = State.reset.setMem (storeBytes Config.loadBase image State.reset.mem) := by
  unfold loadImage at h
  split at h
  · cases h; rfl
  · cases h

theorem loadImage_run (h : loadImage image = .next s) : s.run = .running := by
  rw [loadImage_eq_next h]; rfl

theorem loadImage_pc (h : loadImage image = .next s) : s.pc = 0 := by
  rw [loadImage_eq_next h]; rfl

/-- Settles O16: the load leaves PC at 0, and the step's fetch puts the byte at PC in IR. -/
theorem entryPointIsAddressZero : Obligations.EntryPointIsAddressZero := by
  intro image s t hload hstep
  have hpc : s.pc = 0 := loadImage_pc hload
  obtain ⟨u, hu, hir⟩ := step_fetches (loadImage_run hload) (hpc.trans_lt (by decide))
  obtain rfl : u = t := Host.Outcome.next.inj (hu.symm.trans hstep)
  rwa [hpc] at hir

end Sys2Proof.Machine

/-! Where an instruction completes and which error it raises, each said once for all thirteen. `firstError` is none
exactly where `Completed` holds of some state, the instruction then answers that state, and where `firstError` is an error
the instruction raises it: the meanings are held against the spec's lists of exceptions (60_exceptions.md R151, R154,
R158). -/

namespace Sys2Proof.Machine

variable {i : Instr} {s t : State} {e : FatalError} {r : Byte}

/-! ## An instruction completes where `Completed` says it does -/

theorem exec_prn_of_completed (h : Completed (.prn r) s t) : exec (.prn r) s = .next t := by
  obtain ⟨hpc, hr, rfl⟩ := h
  simp [exec, execPrn, fetchOperand_of_lt hpc, regValue, readReg_of_lt hr, defaultAdvance]

theorem exec_jmp_of_completed (h : Completed (.jmp r) s t) : exec (.jmp r) s = .next t := by
  obtain ⟨hpc, hr, rfl⟩ := h
  simp [exec, execJmp, fetchOperand_of_lt hpc, jumpTo_ok.2 ⟨hr, rfl⟩]

/-- A taken branch is the jump of JMP. -/
theorem exec_branch_of_completed (hi : i = .jeq r ∨ i = .jne r) (h : Completed i s t) : exec i s = .next t := by
  obtain rfl | rfl := hi <;> obtain ⟨hE, hpc, hr, rfl⟩ | ⟨hE, rfl⟩ := h
  · simp [exec, execJeq, hE, fetchOperand_of_lt hpc, jumpTo_ok.2 ⟨hr, rfl⟩]
  · simp [exec, execJeq, hE]
  · simp [exec, execJne, hE, fetchOperand_of_lt hpc, jumpTo_ok.2 ⟨hr, rfl⟩]
  · simp [exec, execJne, hE]

theorem exec_ldi_of_completed {d imm : Byte} (h : Completed (.ldi d imm) s t) : exec (.ldi d imm) s = .next t := by
  obtain ⟨hpc, hd, rfl⟩ := h
  simp [exec, execLdi, fetchOperand_of_lt (show s.pc + 1 < 256 by omega), fetchOperand_of_lt hpc, setRegValue,
    writeReg_of_lt hd, immediate, defaultAdvance]

theorem aluOperands_of_lt (h : s.pc + 2 < 256) : aluOperands s = .ok () := aluOperands_ok.2 h

theorem exec_alu_of_completed {a b : Byte} (hi : i = .add a b ∨ i = .mul a b ∨ i = .cmp a b) (h : Completed i s t) :
    exec i s = .next t := by
  obtain rfl | rfl | rfl := hi <;> obtain ⟨hpc, ha, hb, rfl⟩ := h <;>
    simp [exec, execAdd, execMul, execCmp, aluOperands_of_lt hpc, regValue, readReg_of_lt ha, readReg_of_lt hb,
      setRegValue, writeReg_of_lt ha, defaultAdvance]

/-- The converse of `completed_of_running`, for every instruction. -/
theorem exec_of_completed (h : Completed i s t) : exec i s = .next t := by
  cases i with
  | hlt => exact congrArg Host.Outcome.next (Eq.symm h)
  | ret => exact exec_ret_of_completed h
  | push r => exact exec_push_of_completed h
  | pop r => exact exec_pop_of_completed h
  | prn r => exact exec_prn_of_completed h
  | call r => exact exec_call_of_completed h
  | jmp r => exact exec_jmp_of_completed h
  | jeq r => exact exec_branch_of_completed (.inl rfl) h
  | jne r => exact exec_branch_of_completed (.inr rfl) h
  | ldi d imm => exact exec_ldi_of_completed h
  | add a b => exact exec_alu_of_completed (.inl rfl) h
  | mul a b => exact exec_alu_of_completed (.inr (.inl rfl)) h
  | cmp a b => exact exec_alu_of_completed (.inr (.inr rfl)) h

/-! ## The listed errors, each by its condition -/

@[simp] theorem operandError_one_eq_none : operandError 1 s = none ↔ s.pc + 1 < 256 := by
  simp [operandError]; omega

@[simp] theorem operandError_two_eq_none : operandError 2 s = none ↔ s.pc + 2 < 256 := by
  unfold operandError
  split_ifs <;> simp <;> omega

@[simp] theorem indexError_eq_none : indexError r = none ↔ r.toNat < 8 := by
  simp [indexError]; omega

@[simp] theorem pushError_eq_none : pushError s = none ↔ sp s ≠ 0x00#8 := by simp [pushError]

@[simp] theorem popError_eq_none {v : Byte} : popError v = none ↔ v ≠ 0xFF#8 := by simp [popError]

@[simp] theorem returnError_eq_none : returnError s = none ↔ s.pc + 2 < 256 := by
  simp [returnError]; omega

/-- The SP that POP increments is the one in the register file once the popped byte is written. -/
theorem sp_after_pop (hr : r.toNat < 8) :
    sp (s.setRegs (s.regs.set r.toNat (s.mem.read (stackTop s)) hr)) = popSp r s := by
  have h7 : r = 0x07#8 ↔ r.toNat = 7 := BitVec.toNat_inj.symm
  simp only [sp, State.setRegs_regs, Vector.getElem_set, popSp, h7]

/-- No error of the instruction's list holds exactly where it completes. -/
theorem firstError_eq_none_iff : firstError i s = none ↔ ∃ t, Completed i s t := by
  cases i with
  | hlt => simp [firstError, Completed]
  | ret => simp [firstError, Completed]
  | push r => simp [firstError, Completed, decSp_ok, and_comm]
  | pop r =>
    simp only [firstError, Option.orElse_eq_none, operandError_one_eq_none, indexError_eq_none, popError_eq_none]
    constructor
    · rintro ⟨hpc, hr, hsp⟩
      exact ⟨_, hpc, hr, _, incSp_ok.2 ⟨(sp_after_pop hr).trans_ne hsp, rfl⟩, rfl⟩
    · rintro ⟨_, hpc, hr, s2, h2, _⟩
      exact ⟨hpc, hr, (sp_after_pop hr).symm.trans_ne (incSp_ok.1 h2).1⟩
  | prn r | jmp r | ldi r imm => simp [firstError, Completed]
  | call r =>
    simp only [firstError, Option.orElse_eq_none, operandError_one_eq_none, pushError_eq_none, returnError_eq_none,
      indexError_eq_none]
    constructor
    · rintro ⟨-, hsp, hpc, hr⟩
      exact ⟨_, by omega, _, decSp_ok.2 ⟨hsp, rfl⟩, hr, rfl⟩
    · rintro ⟨_, hpc, s1, h1, hr, _⟩
      exact ⟨by omega, (decSp_ok.1 h1).1, by omega, hr⟩
  | jeq r | jne r => cases hE : flagE s.fl <;> simp [firstError, Completed, hE]
  | add a b | mul a b | cmp a b => simp [firstError, Completed]

/-! ## The error that an operation raises -/

/-- The error an operation raises, or none. -/
def errorOf {α : Type} : Except FatalError α → Option FatalError
  | .ok _ => none
  | .error e => some e

@[simp] theorem errorOf_ok {α : Type} (a : α) : errorOf (.ok a) = none := rfl

@[simp] theorem errorOf_eq_some {α : Type} {x : Except FatalError α} : errorOf x = some e ↔ x = .error e := by
  cases x <;> simp [errorOf]

/-- A sequence raises its first part's error, else its second part's. -/
theorem errorOf_bind {α β : Type} {x : Except FatalError α} {f : α → Except FatalError β} {o₁ o₂ : Option FatalError}
    (hx : errorOf x = o₁) (hf : ∀ a, x = .ok a → errorOf (f a) = o₂) : errorOf (x >>= f) = (o₁ <|> o₂) := by
  subst hx
  cases x with
  | ok a => exact hf a rfl
  | error e => rfl

/-- A sequence whose second part raises nothing raises its first part's error. -/
theorem errorOf_bind_of_ok {α β : Type} {x : Except FatalError α} {f : α → Except FatalError β}
    {o : Option FatalError} (hx : errorOf x = o) (hf : ∀ a, x = .ok a → errorOf (f a) = none) :
    errorOf (x >>= f) = o := by
  rw [errorOf_bind hx hf]
  cases o <;> rfl

theorem errorOf_fetchOperand_one : errorOf (fetchOperand 1 s) = operandError 1 s := by
  by_cases h : s.pc + 1 < 256
  · rw [fetchOperand_of_lt h, operandError_one_eq_none.2 h, errorOf_ok]
  · rw [fetchOperand_of_ge (by omega), operandError, if_pos (by omega)]
    rfl

/-- Two operand reads raise on the first address above 255. -/
theorem errorOf_operandReads {α : Type} (x : Except FatalError α) :
    errorOf (fetchOperand 1 s >>= fun _ => fetchOperand 2 s >>= fun _ => x) = (operandError 2 s <|> errorOf x) := by
  by_cases h2 : s.pc + 2 < 256
  · rw [fetchOperand_of_lt (show s.pc + 1 < 256 by omega), fetchOperand_of_lt h2, operandError_two_eq_none.2 h2]
    rfl
  · by_cases h1 : s.pc + 1 < 256
    · rw [fetchOperand_of_lt h1, fetchOperand_of_ge (by omega), operandError, if_neg (by omega), if_pos (by omega)]
      rfl
    · rw [fetchOperand_of_ge (k := 1) (by omega), operandError, if_pos (by omega)]
      rfl

theorem errorOf_aluOperands : errorOf (aluOperands s) = operandError 2 s :=
  (errorOf_operandReads (.ok ())).trans (by cases operandError 2 s <;> rfl)

theorem errorOf_regValue : errorOf (regValue r s) = indexError r := by
  by_cases h : r.toNat < 8
  · rw [regValue, readReg_of_lt h, indexError_eq_none.2 h, errorOf_ok]
  · rw [regValue, readReg_of_ge (by omega), indexError, if_pos (by omega)]
    rfl

theorem errorOf_setRegValue {v : Byte} : errorOf (setRegValue r v s) = indexError r := by
  by_cases h : r.toNat < 8
  · rw [setRegValue, writeReg_of_lt h, indexError_eq_none.2 h, errorOf_ok]
  · rw [setRegValue, writeReg_of_ge (by omega), indexError, if_pos (by omega)]
    rfl

theorem errorOf_jumpTo : errorOf (jumpTo r s) = indexError r :=
  errorOf_bind_of_ok errorOf_regValue fun _ _ => rfl

theorem errorOf_decSp : errorOf (decSp s) = pushError s := by
  unfold decSp pushError
  split <;> rfl

theorem errorOf_incSp : errorOf (incSp s) = popError (sp s) := by
  unfold incSp popError
  split <;> rfl

theorem errorOf_returnAddress : errorOf (returnAddress s) = returnError s := by
  unfold returnAddress returnError
  by_cases h : s.pc + 2 < 256
  · rw [if_pos h, if_neg (by omega)]
    rfl
  · rw [if_neg h, if_pos (by omega)]
    rfl

theorem memRead_stackTop (t s : State) : memRead (stackTop t) s = .ok (s.mem.read (stackTop t)) :=
  memRead_of_lt (stackTop_lt t)

/-! ## An instruction raises the first error of its list -/

theorem commit_of_errorOf {body : Except FatalError State} {o : Option FatalError} (hb : errorOf body = o)
    (h : o = some e) : commit s body = .next (s.setRun (.faulted e)) := by
  rw [errorOf_eq_some.1 (hb.trans h), commit_error]

/-- The ALU path's reads: both operand bytes, then the two registers in order (41_alu.md R102 to R104). -/
theorem errorOf_aluPath {a b : Byte} {f : Byte → Byte → Except FatalError State}
    (hf : ∀ va vb, a.toNat < 8 → errorOf (f va vb) = none) :
    errorOf (aluOperands s >>= fun _ => regValue a s >>= fun va => regValue b s >>= fun vb => f va vb) =
      (operandError 2 s <|> indexError a <|> indexError b) :=
  errorOf_bind errorOf_aluOperands fun _ _ => errorOf_bind errorOf_regValue fun va hva =>
    errorOf_bind_of_ok errorOf_regValue fun vb _ => hf va vb (readReg_ok.1 hva).1

theorem errorOf_setRegValue_of_lt {v : Byte} {g : State → State} (hr : r.toNat < 8) :
    errorOf (setRegValue r v s >>= fun t => .ok (g t)) = none := by
  rw [setRegValue, writeReg_of_lt hr]
  rfl

theorem exec_of_firstError (h : firstError i s = some e) : exec i s = .next (s.setRun (.faulted e)) := by
  cases i with
  | hlt => cases h
  | ret =>
    refine commit_of_errorOf ?_ h
    rw [memRead_stackTop, ok_bind]
    exact errorOf_bind_of_ok errorOf_incSp fun _ _ => rfl
  | push r =>
    refine commit_of_errorOf ?_ h
    exact errorOf_bind errorOf_fetchOperand_one fun _ _ => errorOf_bind errorOf_decSp fun s1 _ =>
      errorOf_bind_of_ok errorOf_regValue fun v _ => by rw [memWrite_stackTop]; rfl
  | pop r =>
    refine commit_of_errorOf ?_ h
    refine errorOf_bind errorOf_fetchOperand_one fun _ _ => ?_
    rw [memRead_stackTop, ok_bind]
    refine errorOf_bind errorOf_setRegValue fun s1 h1 => errorOf_bind_of_ok ?_ fun _ _ => rfl
    obtain ⟨hr, rfl⟩ := writeReg_ok.1 h1
    rw [errorOf_incSp, sp_after_pop]
  | prn r =>
    refine commit_of_errorOf ?_ h
    exact errorOf_bind errorOf_fetchOperand_one fun _ _ => errorOf_bind_of_ok errorOf_regValue fun _ _ => rfl
  | call r =>
    refine commit_of_errorOf ?_ h
    refine errorOf_bind errorOf_fetchOperand_one fun _ _ => errorOf_bind errorOf_decSp fun s1 h1 => ?_
    have hret : errorOf (returnAddress s1) = returnError s := by
      obtain ⟨_, rfl⟩ := decSp_ok.1 h1
      exact errorOf_returnAddress
    refine errorOf_bind hret fun v _ => ?_
    rw [memWrite_stackTop, ok_bind, errorOf_jumpTo]
  | jmp r =>
    refine commit_of_errorOf ?_ h
    exact errorOf_bind errorOf_fetchOperand_one fun _ _ => errorOf_jumpTo
  | jeq r =>
    refine commit_of_errorOf ?_ h
    cases hE : flagE s.fl
    · simp [firstError, hE]
    · simpa [firstError, hE] using errorOf_bind errorOf_fetchOperand_one fun _ _ => errorOf_jumpTo
  | jne r =>
    refine commit_of_errorOf ?_ h
    cases hE : flagE s.fl
    · simpa [firstError, hE] using errorOf_bind errorOf_fetchOperand_one fun _ _ => errorOf_jumpTo
    · simp [firstError, hE]
  | ldi r imm =>
    refine commit_of_errorOf ?_ h
    rw [errorOf_operandReads]
    exact congrArg (operandError 2 s <|> ·) (errorOf_bind_of_ok errorOf_setRegValue fun _ _ => rfl)
  | add a b | mul a b =>
    exact commit_of_errorOf (errorOf_aluPath fun _ _ ha => errorOf_setRegValue_of_lt ha) h
  | cmp a b => exact commit_of_errorOf (errorOf_aluPath fun _ _ _ => rfl) h

/-- All that an instruction can do, with the error where it raises one. -/
theorem exec_raises_or_completes (h : exec i s = .next t) :
    (∃ e, firstError i s = some e ∧ t = s.setRun (.faulted e)) ∨ (firstError i s = none ∧ Completed i s t) := by
  cases hfirst : firstError i s with
  | some e => exact .inl ⟨e, rfl, Host.Outcome.next.inj (h.symm.trans (exec_of_firstError hfirst))⟩
  | none =>
    obtain ⟨u, hu⟩ := firstError_eq_none_iff.1 hfirst
    obtain rfl : t = u := Host.Outcome.next.inj (h.symm.trans (exec_of_completed hu))
    exact .inr ⟨rfl, hu⟩

end Sys2Proof.Machine

/-! The proofs that reset meets the invariant and that every step and every run keep it. `step_effect` says once what a
step can do: the fetch raises, or the fetched byte's error is recorded, which `recordLegal` describes, or the instruction
completes. -/

namespace Sys2Proof.Machine

variable {i : Instr} {s t : State} {e : FatalError} {r op b1 b2 : Byte}

/-! ## Illegal opcodes -/

theorem isAlu_ne_opHLT (h : isAlu op = true) : op ≠ opHLT := by
  rintro rfl
  simp at h

theorem decode_eq_unsupportedALU_iff {x : Byte} :
    decode op b1 b2 = .error (.unsupportedALU x) ↔ x = op ∧ isAlu op = true ∧ aluSelect op = none := by
  constructor
  · intro h
    unfold decode at h
    split_ifs at h with hhlt halu
    · split at h
      · cases h
      · cases h
        exact ⟨rfl, halu, by assumption⟩
    · split at h <;> cases h
  · rintro ⟨rfl, halu, hsel⟩
    rw [decode, if_neg (isAlu_ne_opHLT halu), if_pos halu, hsel]

theorem decode_eq_unknownOpcode_iff {x : Byte} :
    decode op b1 b2 = .error (.unknownOpcode x) ↔
      x = op ∧ op ≠ opHLT ∧ isAlu op = false ∧ dispatchLookup op = none := by
  constructor
  · intro h
    unfold decode at h
    split_ifs at h with hhlt halu
    · split at h <;> cases h
    · split at h
      · cases h
      · cases h
        exact ⟨rfl, hhlt, by simpa using halu, by assumption⟩
  · rintro ⟨rfl, hhlt, halu, hlook⟩
    rw [decode, if_neg hhlt, if_neg (by simp [halu]), hlook]

theorem rejectAlu_of_lt (h : s.pc + 2 < 256) :
    rejectAlu op s = .next (s.setRun (.faulted (.unsupportedALUOperation op))) := by
  simp [rejectAlu, aluOperands_of_lt h]

theorem aluOperands_of_ge (hpc : s.pc < 256) (h : 256 ≤ s.pc + 2) :
    aluOperands s = .error (.memoryOutOfBounds 256) := by
  rw [aluOperands_error]
  obtain h255 | h254 : s.pc = 255 ∨ s.pc = 254 := by omega
  · exact .inl ⟨by omega, by rw [h255]; rfl⟩
  · exact .inr ⟨by omega, h, by rw [h254]; rfl⟩

theorem rejectAlu_of_ge (hpc : s.pc < 256) (h : 256 ≤ s.pc + 2) :
    rejectAlu op s = .next (s.setRun (.faulted (.memoryOutOfBounds 256))) := by
  simp [rejectAlu, aluOperands_of_ge hpc h]

/-! ## The errors of an instruction are legal records -/

/-- Every error of the list is one that a machine stopped in this state may record. -/
def LegalErrors (s : State) (o : Option FatalError) : Prop := ∀ e, o = some e → recordLegal (s.setRun (.faulted e))

theorem LegalErrors.orElse {o₁ o₂ : Option FatalError} (h₁ : LegalErrors s o₁) (h₂ : LegalErrors s o₂) :
    LegalErrors s (o₁ <|> o₂) := fun e he =>
  ((Option.orElse_eq_some _ _ _).1 he).elim (h₁ e) fun h => h₂ e h.2

theorem LegalErrors.none : LegalErrors s none := fun _ h => by cases h

theorem LegalErrors.ite {c : Bool} {o₁ o₂ : Option FatalError} (h₁ : LegalErrors s o₁) (h₂ : LegalErrors s o₂) :
    LegalErrors s (if c then o₁ else o₂) := by
  cases c
  · exact h₂
  · exact h₁

theorem operandError_legal {n : Nat} (hpc : s.pc < 256) : LegalErrors s (operandError n s) := by
  intro e he
  unfold operandError at he
  split_ifs at he with h1 h2 <;> cases he
  · have h255 : s.pc = 255 := by omega
    exact .inr (.inl (by rw [h255]; rfl))
  · have h254 : s.pc = 254 := by omega
    exact .inr (.inl (by rw [h254]; rfl))

theorem indexError_legal : LegalErrors s (indexError r) := by
  intro e he
  unfold indexError at he
  split_ifs at he with h
  cases he
  exact ⟨h, Nat.le_of_lt_succ r.isLt⟩

theorem pushError_legal : LegalErrors s (pushError s) := by
  intro e he
  unfold pushError at he
  split_ifs at he
  cases he
  exact .inl rfl

theorem popError_legal {v : Byte} : LegalErrors s (popError v) := by
  intro e he
  unfold popError at he
  split_ifs at he
  cases he
  exact .inr (.inl rfl)

theorem returnError_legal (hpc : s.pc < 256) : LegalErrors s (returnError s) := by
  intro e he
  unfold returnError at he
  split_ifs at he with h
  cases he
  obtain h255 | h254 : s.pc = 255 ∨ s.pc = 254 := by omega
  · exact .inr (.inr (by rw [h255]; rfl))
  · exact .inr (.inl (by rw [h254]; rfl))

theorem firstError_legal (hpc : s.pc < 256) : LegalErrors s (firstError i s) := by
  have hop : ∀ {n}, LegalErrors s (operandError n s) := operandError_legal hpc
  cases i with
  | hlt => exact .none
  | ret => exact popError_legal
  | push r => exact hop.orElse (pushError_legal.orElse indexError_legal)
  | pop r => exact hop.orElse (indexError_legal.orElse popError_legal)
  | call r => exact hop.orElse (pushError_legal.orElse ((returnError_legal hpc).orElse indexError_legal))
  | prn r | jmp r | ldi r imm => exact hop.orElse indexError_legal
  | jeq r => exact .ite (hop.orElse indexError_legal) .none
  | jne r => exact .ite .none (hop.orElse indexError_legal)
  | add a b | mul a b | cmp a b => exact hop.orElse (indexError_legal.orElse indexError_legal)

/-! ## What a step can do -/

/-- The state after the fetch of the byte at PC. -/
def fetched (s : State) : State := s.setIr (s.mem.read s.pc)

theorem fetch_eq_fetched (hpc : s.pc < 256) : fetch s = .ok (fetched s) := fetch_ok.2 ⟨hpc, rfl⟩

/-- All that a step which answers a state can have done. -/
inductive StepEffect (s t : State) : Prop where
  | fetchRaised (hpc : 256 ≤ s.pc) (ht : t = s.setRun (.faulted (.memoryOutOfBounds s.pc)))
  | raised (hpc : s.pc < 256) (e : FatalError) (ht : t = (fetched s).setRun (.faulted e)) (hlegal : recordLegal t)
  | completed (hpc : s.pc < 256) (i : Instr) (hop : s.mem.read s.pc = opcodeOf i) (hc : Completed i (fetched s) t)

theorem step_effect (h : step s = .next t) : s.run = .running ∧ StepEffect s t := by
  obtain ⟨-, hr⟩ | ⟨e, -, hr⟩ | ⟨hrun, hpc, hr⟩ | ⟨hrun, hpc, f, rfl, hr⟩ := step_cases h
  · cases hr
  · cases hr
  · cases hr
    exact ⟨hrun, .fetchRaised hpc rfl⟩
  · refine ⟨hrun, ?_⟩
    have hpc' : (fetched s).pc < 256 := hpc
    obtain ⟨i, hd, hx⟩ | ⟨op, hd, hx⟩ | ⟨op, hd, hx⟩ := hr
    · obtain ⟨e, he, rfl⟩ | ⟨-, hc⟩ := exec_raises_or_completes hx.symm
      · exact .raised hpc e rfl (firstError_legal hpc' e he)
      · exact .completed hpc i (decode_ok_opcode hd) hc
    · obtain ⟨rfl, halu, hsel⟩ := decode_eq_unsupportedALU_iff.1 hd
      by_cases hlt : (fetched s).pc + 2 < 256
      · cases hx.trans (rejectAlu_of_lt hlt)
        exact .raised hpc _ rfl ⟨Nat.lt_of_add_lt_add_right hlt, rfl, rfl, halu, hsel⟩
      · cases hx.trans (rejectAlu_of_ge hpc' (Nat.le_of_not_lt hlt))
        exact .raised hpc _ rfl (.inr (.inl rfl))
    · obtain ⟨rfl, hhlt, halu, hlook⟩ := decode_eq_unknownOpcode_iff.1 hd
      cases hx
      exact .raised hpc _ rfl ⟨hpc, rfl, rfl, halu, hhlt, hlook⟩

/-! ## What a completed instruction keeps of the invariant -/

theorem storedAddress_lt {a : Nat} (h : storedAddress i s = some a) : a < 256 := by
  unfold storedAddress at h
  split at h
  · split at h <;> cases h
    exact stackTop_lt _
  · split at h <;> cases h
    exact stackTop_lt _
  all_goals cases h

theorem Completed.keeps_wf (h : Completed i s t) (hwf : s.mem.wf = true) : t.mem.wf = true := by
  obtain hm | ⟨a, v, ha, hm⟩ := h.mem_cases
  · rwa [hm]
  · rw [hm]
    exact Memory.write_wf v hwf (storedAddress_lt ha)

/-- PC stays in its reachable range: a jump goes to a byte, and an advance past memory stops within two cells. -/
theorem Completed.pc_le (h : Completed i s t) (hpc : s.pc < 256) : t.pc ≤ 257 := by
  have hbyte : ∀ v : Byte, v.toNat ≤ 257 := fun v => v.isLt.le.trans (by decide)
  cases i with
  | hlt =>
    obtain rfl := h
    exact hpc.le.trans (by decide)
  | ret =>
    obtain ⟨_, rfl⟩ := h
    exact hbyte _
  | push r =>
    obtain ⟨hp, _, _, _, rfl⟩ := h
    show s.pc + 2 ≤ 257
    omega
  | pop r =>
    obtain ⟨hp, _, _, _, rfl⟩ := h
    show s.pc + 2 ≤ 257
    omega
  | prn r =>
    obtain ⟨hp, _, rfl⟩ := h
    show s.pc + 2 ≤ 257
    omega
  | call r =>
    obtain ⟨_, _, _, _, rfl⟩ := h
    exact hbyte _
  | jmp r =>
    obtain ⟨_, _, rfl⟩ := h
    exact hbyte _
  | jeq r | jne r =>
    obtain ⟨_, _, _, rfl⟩ | ⟨_, rfl⟩ := h
    · exact hbyte _
    · show s.pc + 2 ≤ 257
      omega
  | ldi r imm =>
    obtain ⟨hp, _, rfl⟩ := h
    show s.pc + 3 ≤ 257
    omega
  | add a b | mul a b | cmp a b =>
    obtain ⟨hp, _, _, rfl⟩ := h
    show s.pc + 3 ≤ 257
    omega

theorem Completed.keeps_legalFlags (h : Completed i s t) (hfl : legalFlags s.fl) : legalFlags t.fl := by
  obtain hkeep | ⟨a, b, va, vb, -, hcmp⟩ := h.frame.fl
  · rwa [hkeep]
  · rw [hcmp]
    obtain hc | hc | hc := compareFlags_cases va vb
    · exact .inr (.inr (.inr hc))
    · exact .inr (.inr (.inl hc))
    · exact .inr (.inl hc)

theorem recordLegal_of_running (h : s.run = .running) : recordLegal s := by
  simp [recordLegal, h]

/-- HLT's record names the opcode byte at PC; every other completed instruction goes on. -/
theorem Completed.recordLegal_of_fetched (h : Completed i (fetched s) t) (hrun : s.run = .running) (hpc : s.pc < 256)
    (hop : s.mem.read s.pc = opcodeOf i) : recordLegal t := by
  obtain rfl | hne := eq_or_ne i .hlt
  · obtain rfl := h
    exact ⟨hpc, hop, hop⟩
  · exact recordLegal_of_running ((h.keeps_run hne).trans hrun)

/-! ## The invariant -/

theorem Inv.of_step (h : Inv s) (hstep : step s = .next t) : Inv t := by
  obtain ⟨hmem, hrange, hfl, -⟩ := h
  obtain ⟨hrun, heff⟩ := step_effect hstep
  cases heff with
  | fetchRaised hpc ht =>
    subst ht
    refine ⟨hmem, hrange, hfl, ?_⟩
    obtain h256 | h257 : s.pc = 256 ∨ s.pc = 257 := by omega
    · exact .inr (.inl (by rw [h256]; rfl))
    · exact .inr (.inr (by rw [h257]; rfl))
  | raised hpc e ht hlegal =>
    subst ht
    exact ⟨hmem, hrange, hfl, hlegal⟩
  | completed hpc i hop hc =>
    exact ⟨hc.keeps_wf hmem, hc.pc_le hpc, hc.keeps_legalFlags hfl, hc.recordLegal_of_fetched hrun hpc hop⟩

/-- What every step keeps holds along a run of any length. -/
theorem runFor_induction {P : State → Prop} (hstep : ∀ s t, P s → step s = .next t → P t) (n : Nat) (h : P s) :
    P (runFor n s) := by
  induction n generalizing s with
  | zero => exact h
  | succ n ih =>
    unfold runFor
    split
    · exact ih (hstep _ _ h (by assumption))
    · exact h
    · exact h

theorem inv_reset : Inv State.reset := ⟨rfl, by decide, .inl rfl, trivial⟩

theorem inv_of_loadImage {image : List Byte} (h : loadImage image = .next s) : Inv s := by
  rw [loadImage_eq_next h]
  exact ⟨Memory.storeBytes_wf _ _ rfl, inv_reset.pcRange, inv_reset.flags, trivial⟩

/-! ## The statements -/

/-- Settles O18: read off `step_effect`, field by field of the invariant. -/
theorem stepKeepsInvariant : Obligations.StepKeepsInvariant := fun _ _ h hstep => h.of_step hstep

/-- Settles O19: nothing is stored, PC and FL are 0 and the machine is RUNNING. -/
theorem resetMeetsInvariant : Obligations.ResetMeetsInvariant := inv_reset

/-- Settles O20: the load meets the invariant and every step keeps it. -/
theorem invariantAlongEveryRun : Obligations.InvariantAlongEveryRun := fun _ _ n hload =>
  runFor_induction (fun _ _ h hstep => h.of_step hstep) n (inv_of_loadImage hload)

end Sys2Proof.Machine

/-! The proofs of the statements about every instruction and every run: errors are precise and are the first of the
list, the output channel only grows, IR is not read, and what a transfer of control or a store leaves. -/

namespace Sys2Proof.Machine

variable {i : Instr} {s t : State} {e : FatalError}

/-! ## The run state -/

/-- A completed instruction records no error. -/
theorem Completed.run_cases (h : Completed i s t) : t.run = s.run ∨ (i = .hlt ∧ t.run = .halted) := by
  obtain rfl | hne := eq_or_ne i .hlt
  · obtain rfl := h
    exact .inr ⟨rfl, rfl⟩
  · exact .inl (h.keeps_run hne)

theorem Completed.not_faulted (h : Completed i s t) (hrun : s.run = .running) (hf : t.run = .faulted e) : False := by
  obtain hkeep | ⟨-, hhalt⟩ := h.run_cases
  · simp [hkeep, hrun] at hf
  · simp [hhalt] at hf

/-! ## The output channel -/

theorem Completed.output_cases (h : Completed i s t) :
    t.output = s.output ∨ ∃ (r : Byte) (hr : r.toNat < 8), i = .prn r ∧ t.output = s.output ++ [s.regs[r.toNat]] := by
  cases i with
  | prn r =>
    obtain ⟨_, hr, rfl⟩ := h
    exact .inr ⟨r, hr, rfl, rfl⟩
  | hlt =>
    obtain rfl := h
    exact .inl rfl
  | ret =>
    obtain ⟨_, rfl⟩ := h
    exact .inl rfl
  | push r | call r =>
    obtain ⟨_, s1, h1, _, rfl⟩ := h
    obtain ⟨_, rfl⟩ := decSp_ok.1 h1
    exact .inl rfl
  | pop r =>
    obtain ⟨_, _, s2, h2, rfl⟩ := h
    obtain ⟨_, rfl⟩ := incSp_ok.1 h2
    exact .inl rfl
  | jmp r | ldi r imm =>
    obtain ⟨_, _, rfl⟩ := h
    exact .inl rfl
  | add a b | mul a b | cmp a b =>
    obtain ⟨_, _, _, rfl⟩ := h
    exact .inl rfl
  | jeq r | jne r => obtain ⟨_, _, _, rfl⟩ | ⟨_, rfl⟩ := h <;> exact .inl rfl

theorem step_extends_output (h : step s = .next t) : s.output <+: t.output := by
  obtain ⟨-, heff⟩ := step_effect h
  cases heff with
  | fetchRaised hpc ht => rw [ht]; exact List.prefix_rfl
  | raised hpc e ht hlegal => rw [ht]; exact List.prefix_rfl
  | completed hpc i hop hc =>
    obtain hkeep | ⟨r, hr, -, happ⟩ := hc.output_cases
    · rw [hkeep]; exact List.prefix_rfl
    · rw [happ]; exact List.prefix_append _ _

/-! ## IR is not read -/

theorem firstError_setIr (i : Instr) (s : State) (x : Byte) : firstError i (s.setIr x) = firstError i s := by
  cases i <;> rfl

theorem decSp_setIr (x : Byte) (h : decSp s = .ok t) : decSp (s.setIr x) = .ok (t.setIr x) := by
  obtain ⟨hsp, rfl⟩ := decSp_ok.1 h
  exact decSp_ok.2 ⟨hsp, rfl⟩

theorem incSp_setIr (x : Byte) (h : incSp s = .ok t) : incSp (s.setIr x) = .ok (t.setIr x) := by
  obtain ⟨hsp, rfl⟩ := incSp_ok.1 h
  exact incSp_ok.2 ⟨hsp, rfl⟩

theorem Completed.setIr (x : Byte) (h : Completed i s t) : Completed i (s.setIr x) (t.setIr x) := by
  cases i with
  | hlt =>
    obtain rfl := h
    rfl
  | ret =>
    obtain ⟨hsp, rfl⟩ := h
    exact ⟨hsp, rfl⟩
  | push r | call r =>
    obtain ⟨hpc, s1, h1, hr, rfl⟩ := h
    exact ⟨hpc, _, decSp_setIr x h1, hr, rfl⟩
  | pop r =>
    obtain ⟨hpc, hr, s2, h2, rfl⟩ := h
    exact ⟨hpc, hr, _, incSp_setIr x h2, rfl⟩
  | prn r | jmp r | ldi r imm =>
    obtain ⟨hpc, hr, rfl⟩ := h
    exact ⟨hpc, hr, rfl⟩
  | add a b | mul a b | cmp a b =>
    obtain ⟨hpc, ha, hb, rfl⟩ := h
    exact ⟨hpc, ha, hb, rfl⟩
  | jeq r | jne r =>
    obtain ⟨hE, hpc, hr, rfl⟩ | ⟨hE, rfl⟩ := h
    · exact .inl ⟨hE, hpc, hr, rfl⟩
    · exact .inr ⟨hE, rfl⟩

/-! ## What a store and a transfer of control leave -/

theorem Completed.push_readback {r : Byte} {a : Nat} (h : Completed (.push r) s t) (hwf : s.mem.wf = true)
    (ha : storedAddress (.push r) s = some a) : ∃ hr : r.toNat < 8, t.mem.read a = t.regs[r.toNat] := by
  obtain ⟨_, s1, h1, hr, _⟩ := id h
  obtain rfl : stackTop s1 = a := Option.some.inj ((storedAddress_push h1).symm.trans ha)
  rw [decSp_stackTop h1]
  exact ⟨hr, (h.push_effect hwf hr).2.2⟩

theorem Completed.call_readback {r : Byte} {a : Nat} (h : Completed (.call r) s t) (hwf : s.mem.wf = true)
    (ha : storedAddress (.call r) s = some a) : (t.mem.read a).toNat = s.pc + 2 := by
  obtain ⟨_, s1, h1, hr, _⟩ := id h
  obtain rfl : stackTop s1 = a := Option.some.inj ((storedAddress_call h1).symm.trans ha)
  obtain ⟨-, htop, hread⟩ := h.call_effect hwf hr
  have hsame : stackTop s1 = stackTop t := by rw [decSp_stackTop h1]; omega
  rwa [hsame]

/-- CALL, JMP and a taken branch go where their register points as they leave it. -/
theorem Completed.transfer_pc {r : Byte} (h : Completed i s t)
    (hi : i = .call r ∨ i = .jmp r ∨ (i = .jeq r ∧ flagE s.fl = true) ∨ (i = .jne r ∧ flagE s.fl = false)) :
    ∃ hr : r.toNat < 8, t.pc = (t.regs[r.toNat]).toNat := by
  obtain rfl | rfl | ⟨rfl, hE⟩ | ⟨rfl, hE⟩ := hi
  · obtain ⟨_, _, _, hr, rfl⟩ := h
    exact ⟨hr, rfl⟩
  · obtain ⟨_, hr, rfl⟩ := h
    exact ⟨hr, rfl⟩
  · obtain ⟨_, _, hr, rfl⟩ | ⟨hE', _⟩ := h
    · exact ⟨hr, rfl⟩
    · simp [hE] at hE'
  · obtain ⟨_, _, hr, rfl⟩ | ⟨hE', _⟩ := h
    · exact ⟨hr, rfl⟩
    · simp [hE] at hE'

theorem Completed.branch_not_taken_pc {r : Byte} (h : Completed i s t)
    (hi : (i = .jeq r ∧ flagE s.fl = false) ∨ (i = .jne r ∧ flagE s.fl = true)) : t.pc = s.pc + 2 := by
  obtain ⟨rfl, hE⟩ | ⟨rfl, hE⟩ := hi
  · obtain ⟨hE', _⟩ | ⟨_, rfl⟩ := h
    · simp [hE] at hE'
    · rfl
  · obtain ⟨hE', _⟩ | ⟨_, rfl⟩ := h
    · simp [hE] at hE'
    · rfl

/-! ## The statements -/

/-- Settles O13: while RUNNING, whatever the fetch and the decoder answer ends in a next state. -/
theorem stepIsTotalWhileRunning : Obligations.StepIsTotalWhileRunning := by
  refine fun s => ⟨fun hrun => ?_, fun hh => by simp [step, hh], fun e he => by simp [step, he]⟩
  by_cases hpc : s.pc < 256
  · obtain ⟨u, hu, -⟩ := step_fetches hrun hpc
    exact ⟨u, hu⟩
  · have hf : fetch s = .error (.memoryOutOfBounds s.pc) := fetch_error.2 ⟨Nat.le_of_not_lt hpc, rfl⟩
    exact ⟨_, by simp only [step, hrun, cycle, hf]; rfl⟩

/-- Settles O25: a machine that goes on has completed the transfer, HLT leaves PC and so does an error. -/
theorem transfersSetPc : Obligations.TransfersSetPc := by
  intro i s t hrun h
  refine ⟨fun ht => ?_, fun ht => ?_, fun e he => ?_⟩
  · have hc := completed_of_running h ht
    refine ⟨fun r hi => hc.transfer_pc hi, ?_, fun r hi => hc.branch_not_taken_pc hi⟩
    rintro rfl
    exact hc.ret_effect.1
  · obtain hc | ⟨e, rfl⟩ := exec_next_cases h
    · obtain rfl := (hc.halted_iff hrun).1 ht
      obtain rfl := hc
      rfl
    · simp at ht
  · obtain hc | ⟨e, rfl⟩ := exec_next_cases h
    · exact (hc.not_faulted hrun he).elim
    · rfl

/-- Settles O28: a completed PUSH or CALL has written the cell that `storedAddress` names. -/
theorem storedByteReadsBack : Obligations.StoredByteReadsBack := fun _ _ _ _ hwf _ ht =>
  ⟨fun h ha => (completed_of_running h ht).push_readback hwf ha,
   fun h ha => (completed_of_running h ht).call_readback hwf ha⟩

/-- Settles O29: of the completed instructions only PRN appends, and an error appends nothing. -/
theorem outputFrame : Obligations.OutputFrame := by
  intro i s t h
  obtain hc | ⟨e, rfl⟩ := exec_next_cases h
  · exact hc.output_cases
  · exact .inl rfl

/-- Settles O30: every step extends the output, and so does a run. -/
theorem outputIsAppendOnly : Obligations.OutputIsAppendOnly := fun n s =>
  runFor_induction (P := fun t => s.output <+: t.output) (fun _ _ hp hstep => hp.trans (step_extends_output hstep)) n
    List.prefix_rfl

/-- Settles O31: what records an error in a RUNNING machine has not completed, and kept no effect but the fetch's. -/
theorem fatalErrorsArePrecise : Obligations.FatalErrorsArePrecise := by
  refine ⟨fun i s t e hrun h ht => ?_, fun s t e h ht => ?_⟩
  · obtain hc | ⟨e', rfl⟩ := exec_next_cases h
    · exact (hc.not_faulted hrun ht).elim
    · cases ht
      rfl
  · obtain ⟨hrun, heff⟩ := step_effect h
    cases heff with
    | fetchRaised hpc hts =>
      subst hts
      cases ht
      rw [if_neg (by omega)]
      rfl
    | raised hpc e' hts hlegal =>
      subst hts
      cases ht
      rw [if_pos (by omega)]
      rfl
    | completed hpc i hop hc => exact (hc.not_faulted hrun ht).elim

/-- Settles O32: the list has an error exactly where the instruction does not complete, and that error is raised. -/
theorem raisesFirstError : Obligations.RaisesFirstError := by
  refine fun i s => ⟨fun e he => exec_of_firstError he, fun hnone => ?_⟩
  obtain ⟨t, hc⟩ := firstError_eq_none_iff.1 hnone
  exact ⟨t, exec_of_completed hc, hc.run_cases⟩

/-- Settles O33: neither the error of an instruction nor its effect looks at IR. -/
theorem irIsNotReadAsData : Obligations.IrIsNotReadAsData := by
  intro i s t x h
  obtain ⟨e, he, rfl⟩ | ⟨-, hc⟩ := exec_raises_or_completes h
  · exact exec_of_firstError ((firstError_setIr i s x).trans he)
  · exact exec_of_completed (hc.setIr x)

end Sys2Proof.Machine

/-! The proofs of the statements about illegal opcodes, about the thirteen words, and about the step at bytes that
decode, that do not decode, or that are not all there. -/

namespace Sys2Proof.Machine

variable {i j : Instr} {s t : State} {e : FatalError} {op b1 b2 c1 c2 : Byte}

/-! ## The two tables, by what they do not list -/

theorem aluSelect_eq_none_iff : aluSelect op = none ↔ op ≠ opADD ∧ op ≠ opMUL ∧ op ≠ opCMP := by
  unfold aluSelect
  split_ifs <;> simp_all

theorem dispatchLookup_eq_none_iff : dispatchLookup op = none ↔ ∀ h, (op, h) ∉ dispatchTable := by
  rw [dispatchLookup, List.lookup_eq_none_iff]
  constructor
  · intro hall h hmem
    simpa using hall _ hmem
  · rintro hno ⟨k, h⟩ hmem
    rw [bne_iff_ne]
    rintro rfl
    exact hno h hmem

theorem dispatchLookup_eq_none_iff_bytes :
    dispatchLookup op = none ↔ op ≠ opRET ∧ op ≠ opPUSH ∧ op ≠ opPOP ∧ op ≠ opPRN ∧ op ≠ opCALL ∧ op ≠ opJMP ∧
      op ≠ opJEQ ∧ op ≠ opJNE ∧ op ≠ opLDI := by
  simp only [dispatchLookup, List.lookup_eq_none_iff, dispatchTable, List.forall_mem_cons, bne_iff_ne]
  tauto

/-! ## The step at bytes that do not decode -/

theorem step_eq_execute (hrun : s.run = .running) (hpc : s.pc < 256) : step s = execute (fetched s) := by
  simp [step, hrun, cycle, fetch_eq_fetched hpc]

theorem step_of_unknownOpcode (hrun : s.run = .running) (hpc : s.pc < 256) (hhlt : s.mem.read s.pc ≠ opHLT)
    (halu : isAlu (s.mem.read s.pc) = false) (hlook : dispatchLookup (s.mem.read s.pc) = none) :
    step s = .next ((fetched s).setRun (.faulted (.unknownOpcode (s.mem.read s.pc)))) := by
  have hd : decodeFetched (fetched s) = .error (.unknownOpcode (s.mem.read s.pc)) :=
    decode_eq_unknownOpcode_iff.2 ⟨rfl, hhlt, halu, hlook⟩
  rw [step_eq_execute hrun hpc]
  simp only [execute, hd]
  rfl

theorem step_of_unsupportedALU (hrun : s.run = .running) (hpc : s.pc < 256)
    (halu : isAlu (s.mem.read s.pc) = true) (hsel : aluSelect (s.mem.read s.pc) = none) :
    step s = rejectAlu (s.mem.read s.pc) (fetched s) := by
  have hd : decodeFetched (fetched s) = .error (.unsupportedALU (s.mem.read s.pc)) :=
    decode_eq_unsupportedALU_iff.2 ⟨rfl, halu, hsel⟩
  rw [step_eq_execute hrun hpc]
  simp only [execute, hd]

/-! ## The step where an operand byte has no cell -/

theorem operandError_one_of_ge (hpc : s.pc < 256) (h : 256 ≤ s.pc + 1) :
    operandError 1 s = some (.memoryOutOfBounds 256) := by
  obtain h255 : s.pc = 255 := by omega
  simp [operandError, h255]

theorem operandError_two_of_ge (hpc : s.pc < 256) (h : 256 ≤ s.pc + 2) :
    operandError 2 s = some (.memoryOutOfBounds 256) := by
  obtain h255 | h254 : s.pc = 255 ∨ s.pc = 254 := by omega
  · simp [operandError, h255]
  · simp [operandError, h254]

theorem exec_eq_of_firstError (hi : firstError i s = some e) (hj : firstError j s = some e) : exec i s = exec j s :=
  (exec_of_firstError hi).trans (exec_of_firstError hj).symm

/-- Two instructions that begin with the same operand reads raise alike where these do. -/
theorem exec_eq_of_operandError {n : Nat} {o₁ o₂ : Option FatalError} (hi : firstError i s = (operandError n s <|> o₁))
    (hj : firstError j s = (operandError n s <|> o₂)) (h : operandError n s = some e) : exec i s = exec j s := by
  rw [h] at hi hj
  exact exec_eq_of_firstError hi hj

theorem exec_eq_of_completed (hi : Completed i s t) (hj : Completed j s t) : exec i s = exec j s :=
  (exec_of_completed hi).trans (exec_of_completed hj).symm

/-- The same instruction with other operand bytes; `decode_withOperands` ties it to the decoder. -/
def withOperands : Instr → Byte → Byte → Instr
  | .hlt, _, _ => .hlt
  | .ret, _, _ => .ret
  | .push _, c1, _ => .push c1
  | .pop _, c1, _ => .pop c1
  | .prn _, c1, _ => .prn c1
  | .call _, c1, _ => .call c1
  | .jmp _, c1, _ => .jmp c1
  | .jeq _, c1, _ => .jeq c1
  | .jne _, c1, _ => .jne c1
  | .ldi _ _, c1, c2 => .ldi c1 c2
  | .add _ _, c1, c2 => .add c1 c2
  | .mul _ _, c1, c2 => .mul c1 c2
  | .cmp _ _, c1, c2 => .cmp c1 c2

theorem opcodeOf_withOperands (i : Instr) (c1 c2 : Byte) : opcodeOf (withOperands i c1 c2) = opcodeOf i := by
  cases i <;> rfl

theorem operandsOf_withOperands_prefix (i : Instr) (c1 c2 : Byte) : operandsOf (withOperands i c1 c2) <+: [c1, c2] := by
  cases i <;> simp [withOperands, operandsOf]

theorem decode_withOperands (h : decode op b1 b2 = .ok i) (c1 c2 : Byte) :
    decode op c1 c2 = .ok (withOperands i c1 c2) := by
  rw [decode_ok_opcode h, ← opcodeOf_withOperands i c1 c2]
  exact decode_opcodeOf (operandsOf_withOperands_prefix i c1 c2)

/-- Where the last operand byte has no cell, an instruction does the same whatever byte stands for it: the read of an
operand that it needs raises first. -/
theorem exec_withOperands (hpc : s.pc < 256) (htop : 256 ≤ s.pc + 2) (hargs : operandsOf i <+: [b1, b2])
    (hsame : s.pc + 1 < 256 → c1 = b1) (c2 : Byte) : exec (withOperands i c1 c2) s = exec i s := by
  have htwo := operandError_two_of_ge hpc htop
  have hone : c1 = b1 ∨ operandError 1 s = some (.memoryOutOfBounds 256) :=
    (Nat.lt_or_ge _ _).imp hsame (operandError_one_of_ge hpc)
  cases i with
  | hlt | ret => rfl
  | push a | pop a | prn a | call a | jmp a =>
    obtain rfl : a = b1 := by simpa [operandsOf] using hargs
    obtain rfl | hraise := hone
    · rfl
    · exact exec_eq_of_operandError rfl rfl hraise
  | jeq a =>
    obtain rfl : a = b1 := by simpa [operandsOf] using hargs
    obtain rfl | hraise := hone
    · rfl
    · by_cases hE : flagE s.fl = true
      · exact exec_eq_of_operandError (if_pos hE) (if_pos hE) hraise
      · exact exec_eq_of_completed (.inr ⟨Bool.eq_false_of_not_eq_true hE, rfl⟩)
          (.inr ⟨Bool.eq_false_of_not_eq_true hE, rfl⟩)
  | jne a =>
    obtain rfl : a = b1 := by simpa [operandsOf] using hargs
    obtain rfl | hraise := hone
    · rfl
    · by_cases hE : flagE s.fl = true
      · exact exec_eq_of_completed (.inr ⟨hE, rfl⟩) (.inr ⟨hE, rfl⟩)
      · exact exec_eq_of_operandError (if_neg hE) (if_neg hE) hraise
  | ldi a b | add a b | mul a b | cmp a b =>
    exact exec_eq_of_operandError rfl rfl htwo

/-! ## The statements -/

/-- Settles O3: the tables' lists of bytes, and the only two errors that the decoder names. -/
theorem illegalOpcodesByName : Obligations.IllegalOpcodesByName := by
  intro op b1 b2
  refine ⟨?_, ?_, fun e he => ?_⟩
  · rw [decode_eq_unsupportedALU_iff, aluSelect_eq_none_iff]
    exact ⟨fun h => h.2, fun h => ⟨rfl, h⟩⟩
  · rw [decode_eq_unknownOpcode_iff, dispatchLookup_eq_none_iff_bytes]
    exact ⟨fun ⟨_, hhlt, halu, hlook⟩ => ⟨halu, hhlt, hlook⟩, fun ⟨halu, hhlt, hlook⟩ => ⟨rfl, hhlt, halu, hlook⟩⟩
  · cases e with
    | unsupportedALU x => exact .inl (congrArg _ (decode_eq_unsupportedALU_iff.1 he).1)
    | unknownOpcode x => exact .inr (congrArg _ (decode_eq_unknownOpcode_iff.1 he).1)

/-- Settles O4: a count over the 256 opcode bytes, by evaluation. -/
theorem opcodeCounts : Obligations.OpcodeCounts := ⟨rfl, rfl, rfl⟩

/-- Settles O5: each word is the opcode byte of its instruction. -/
theorem wordsWrittenOut : Obligations.WordsWrittenOut := by
  refine fun a b => ⟨?_, ?_, ?_, ?_, ?_, ?_, ?_, ?_, ?_, ?_, ?_, ?_, ?_⟩ <;>
    exact decode_eq_ok_iff.2 ⟨rfl, by simp [operandsOf]⟩

/-- Settles O6: with all three bytes in memory the decoder is handed them. -/
theorem stepRunsDecodedInstruction : Obligations.StepRunsDecodedInstruction := by
  intro s i hrun hpc hd
  refine step_of_decodeFetched hrun (by omega) ?_
  rw [decodeFetched, operandByte_of_lt (by simp; omega), operandByte_of_lt (by simp; omega)]
  exact hd

/-- Settles O7: the machine's decoder answers the same instruction with its own filler, and that does the same. -/
theorem absentOperandBytesAreNeverUsed : Obligations.AbsentOperandBytesAreNeverUsed := by
  intro s i b1 b2 hrun htop hb1 hd
  have hpc : (fetched s).pc < 256 := show s.pc < 256 by omega
  have hsame : (fetched s).pc + 1 < 256 → operandByte 1 (fetched s) = b1 := by
    intro hlt
    have h254 : s.pc = 254 := by
      have hlt' : s.pc + 1 < 256 := hlt
      omega
    rw [operandByte_of_lt hlt, hb1 h254]
    show s.mem.read (s.pc + 1) = _
    rw [h254]
  rw [step_of_decodeFetched hrun hpc (decode_withOperands hd _ _)]
  exact exec_withOperands hpc (show 256 ≤ s.pc + 2 by omega) (decode_ok_operands hd) hsame _

/-- Settles O8: the bytes decode to the instruction they encode. -/
theorem stepRunsEncodedInstruction : Obligations.StepRunsEncodedInstruction := fun _ _ hrun h => step_of_holdsAt hrun h

/-- Settles O9: the fetch is the first to read memory, and it raises. -/
theorem fetchAboveMemoryFaults : Obligations.FetchAboveMemoryFaults := by
  intro s hrun hpc
  have hf : fetch s = .error (.memoryOutOfBounds s.pc) := fetch_error.2 ⟨hpc, rfl⟩
  simp only [step, hrun, cycle, hf]
  rfl

/-- Settles O11: such a byte does not decode, and its error is raised before any operand is read. -/
theorem unknownOpcodeFaults : Obligations.UnknownOpcodeFaults := by
  rintro s op hrun hpc rfl halu hhlt htable
  exact step_of_unknownOpcode hrun (by omega) hhlt halu (dispatchLookup_eq_none_iff.2 htable)

/-- Settles O12: such a byte does not decode, and the operand reads raise first where they are not both in memory. -/
theorem unsupportedAluFaults : Obligations.UnsupportedAluFaults := by
  rintro s op hrun hpc rfl halu hadd hmul hcmp
  rw [step_of_unsupportedALU hrun (by omega) halu (aluSelect_eq_none_iff.2 ⟨hadd, hmul, hcmp⟩)]
  have hlt : (fetched s).pc < 256 := show s.pc < 256 by omega
  split_ifs with h253
  · exact rejectAlu_of_lt (show s.pc + 2 < 256 by omega)
  · exact rejectAlu_of_ge hlt (show 256 ≤ s.pc + 2 by omega)

end Sys2Proof.Machine

/-! The proofs of the statements of 70_reset_and_hazards.md about reset and the load, and of the text of one output
entry. -/

namespace Sys2Proof.Machine

variable {m : Memory} {a b : Nat} {vs : List Byte}

/-! ## What the load's store leaves in memory -/

theorem read_storeBytes_of_lt (h : b < a) : (storeBytes a vs m).read b = m.read b := by
  induction vs generalizing a m with
  | nil => rfl
  | cons v vs ih =>
    rw [storeBytes, ih (Nat.lt_succ_of_lt h)]
    split
    · exact Memory.read_write_other m v h.ne
    · rfl

theorem read_storeBytes_of_ge (h : a + vs.length ≤ b) : (storeBytes a vs m).read b = m.read b := by
  induction vs generalizing a m with
  | nil => rfl
  | cons v vs ih =>
    rw [List.length_cons] at h
    rw [storeBytes, ih (by omega)]
    split
    · exact Memory.read_write_other m v (by omega)
    · rfl

theorem read_storeBytes_add {k : Nat} (hwf : m.wf = true) (hk : k < vs.length) (hfit : a + vs.length ≤ 256) :
    (storeBytes a vs m).read (a + k) = vs[k] := by
  induction vs generalizing a m k with
  | nil => exact absurd hk (Nat.not_lt_zero k)
  | cons v vs ih =>
    rw [List.length_cons] at hk hfit
    have ha : a < 256 := by omega
    rw [storeBytes, if_pos ha]
    cases k with
    | zero =>
      refine (read_storeBytes_of_lt (Nat.lt_add_one a)).trans ?_
      exact Memory.read_write_same a v hwf
    | succ k =>
      rw [show a + (k + 1) = a + 1 + k by omega]
      exact ih (Memory.write_wf v hwf ha) (Nat.lt_of_succ_lt_succ hk) (by omega)

/-! ## The statements -/

/-- Settles O14: the fields of `State.reset`, register by register. -/
theorem resetState : Obligations.ResetState := by
  refine ⟨rfl, rfl, rfl, rfl, fun k hk => ?_, rfl, rfl, fun a => rfl⟩
  interval_cases k <;> rfl

/-- Settles O15: the store of the load fills the cells of the image and no other. -/
theorem loadPlacesImage : Obligations.LoadPlacesImage := by
  refine fun image => ⟨fun hlen => ⟨_, if_pos hlen, fun k hk => ?_, fun a ha => ?_, rfl⟩, fun hlen => ?_⟩
  · have hread := read_storeBytes_add (a := Config.loadBase) Memory.wf_nil hk (by simpa using hlen)
    rwa [Nat.zero_add] at hread
  · exact read_storeBytes_of_ge ((Nat.zero_add _).trans_le ha)
  · exact if_neg (Nat.not_le_of_lt hlen)

/-- Settles O17: the byte at address 0 is 0x00, which no table lists. -/
theorem emptyImageFaults : Obligations.EmptyImageFaults :=
  ⟨rfl, step_of_unknownOpcode rfl (by decide) (by decide) (by decide) (by decide)⟩

/-- The digits of a byte, by their number. -/
theorem decimalDigits_cases (v : Byte) :
    (v.toNat < 10 ∧ decimalDigits v = [v.toNat]) ∨
    (10 ≤ v.toNat ∧ v.toNat < 100 ∧ decimalDigits v = [v.toNat / 10, v.toNat % 10]) ∨
    (100 ≤ v.toNat ∧ decimalDigits v = [v.toNat / 100, v.toNat / 10 % 10, v.toNat % 10]) := by
  unfold decimalDigits
  split_ifs with h1 h2
  · exact .inl ⟨h1, rfl⟩
  · exact .inr (.inl ⟨by omega, h2, rfl⟩)
  · exact .inr (.inr ⟨by omega, rfl⟩)

/-- Settles O57: one, two or three digits, each case by arithmetic. -/
theorem entryTextIsShortestNumeral : Obligations.EntryTextIsShortestNumeral := by
  intro v
  have hv : v.toNat < 256 := v.isLt
  rw [entryText]
  obtain ⟨h, hd⟩ | ⟨h, h', hd⟩ | ⟨h, hd⟩ := decimalDigits_cases v <;> rw [hd]
  · simp [h]
  · refine ⟨?_, ?_, ?_⟩ <;> simp <;> omega
  · refine ⟨?_, ?_, ?_⟩ <;> simp <;> omega

end Sys2Proof.Machine

/-! The proofs of the statements about single instructions: where one completes, `Completed` holds of the state written
out. -/

namespace Sys2Proof.Machine

variable {s : State} {v w : Byte}

/-! ## Bytes -/

theorem ofNat_mod_eq_lowByte (n : Nat) : BitVec.ofNat 8 (n % 256) = lowByte n :=
  BitVec.eq_of_toNat_eq (by simp)

theorem lowByte_succ (v : Byte) : lowByte (v.toNat + 1) = v + 1 := BitVec.eq_of_toNat_eq (by simp)

theorem lowByte_pred (h : 1 ≤ v.toNat) : lowByte (v.toNat - 1) = v - 1 := by
  have hv : v.toNat < 256 := v.isLt
  have hone : (1 : Byte).toNat = 1 := rfl
  apply BitVec.eq_of_toNat_eq
  rw [lowByte_toNat, BitVec.toNat_sub, hone]
  omega

theorem ne_ff_of_le (h : v.toNat ≤ 254) : v ≠ 0xFF#8 := fun hff => by simp [hff] at h

/-- A register after SP is written: SP's own new value, or the old one. -/
theorem getElem_set_sp (x : Vector Byte 8) (w : Byte) {k : Nat} (hk : k < 8) :
    (x.set 7 w)[k] = if k = 7 then w else x[k] := by
  rw [Vector.getElem_set]
  exact if_congr eq_comm rfl rfl

/-- SP after a decrement inside its range. -/
theorem decSp_of_pos (h : 1 ≤ (s.regs[7]).toNat) : decSp s = .ok (setSp (s.regs[7] - 1) s) :=
  decSp_ok.2 ⟨sp_ne_zero_of_pos h, by rw [← lowByte_pred h]; rfl⟩

theorem incSp_of_le (h : (s.regs[7]).toNat ≤ 254) : incSp s = .ok (setSp (s.regs[7] + 1) s) :=
  incSp_ok.2 ⟨ne_ff_of_le h, by rw [← lowByte_succ]; rfl⟩

/-! ## Flags after CMP -/

theorem compareFlags_eq_less_iff : compareFlags v w = 0b100#8 ↔ v.toNat < w.toNat := by
  unfold compareFlags
  split_ifs with hlt hgt
  · exact iff_of_true rfl hlt
  · exact iff_of_false (by decide) hlt
  · exact iff_of_false (by decide) hlt

theorem compareFlags_eq_greater_iff : compareFlags v w = 0b010#8 ↔ w.toNat < v.toNat := by
  unfold compareFlags
  split_ifs with hlt hgt
  · exact iff_of_false (by decide) (by omega)
  · exact iff_of_true rfl hgt
  · exact iff_of_false (by decide) hgt

theorem compareFlags_eq_equal_iff : compareFlags v w = 0b001#8 ↔ v = w := by
  rw [← BitVec.toNat_inj (x := v)]
  unfold compareFlags
  split_ifs with hlt hgt
  · exact iff_of_false (by decide) (by omega)
  · exact iff_of_false (by decide) (by omega)
  · exact iff_of_true rfl (by omega)

theorem flagE_compareFlags : flagE (compareFlags v w) = true ↔ v = w := by
  rw [← compareFlags_eq_equal_iff]
  obtain h | h | h := compareFlags_cases v w <;> rw [h] <;> decide

/-! ## The statements: where an instruction completes -/

/-- Settles O35: HLT completes under no condition. -/
theorem hltHalts : Obligations.HltHalts := fun _ => exec_of_completed (i := .hlt) rfl

/-- Settles O36: the low byte of the sum is what a completed ADD writes. -/
theorem addWrapsModulo256 : Obligations.AddWrapsModulo256 := by
  intro a b s ha hb hpc
  rw [ofNat_mod_eq_lowByte]
  exact exec_of_completed ⟨by omega, ha, hb, rfl⟩

/-- Settles O37: the low byte of the product is what a completed MUL writes. -/
theorem mulKeepsLowByte : Obligations.MulKeepsLowByte := by
  intro a b s ha hb hpc
  rw [ofNat_mod_eq_lowByte]
  exact exec_of_completed ⟨by omega, ha, hb, rfl⟩

/-- Settles O38: FL after a completed CMP is `compareFlags` of the two registers. -/
theorem cmpSetsOneFlag : Obligations.CmpSetsOneFlag := fun _ _ _ ha hb hpc =>
  ⟨_, exec_of_completed ⟨by omega, ha, hb, rfl⟩, rfl, compareFlags_eq_less_iff, compareFlags_eq_greater_iff,
    compareFlags_eq_equal_iff⟩

/-- Settles O39: LDI completes with both operand bytes in memory and a register that exists. -/
theorem ldiLoadsImmediate : Obligations.LdiLoadsImmediate := fun _ _ _ hd hpc =>
  exec_of_completed ⟨by omega, hd, rfl⟩

/-- Settles O40: PRN completes with its operand byte in memory and a register that exists. -/
theorem prnEmitsRegister : Obligations.PrnEmitsRegister := fun _ _ hr hpc => exec_of_completed ⟨by omega, hr, rfl⟩

/-- Settles O41: the source register is read after SP has moved. -/
theorem pushStoresBelowStack : Obligations.PushStoresBelowStack := by
  intro r s hr hpc hsp
  have h1 := decSp_of_pos hsp
  refine exec_of_completed ⟨by omega, _, h1, hr, ?_⟩
  rw [decSp_stackTop h1, setSp_regs, getElem_set_sp]
  rfl

/-- Settles O42: the popped byte is in its register before SP moves. -/
theorem popLoadsFromStack : Obligations.PopLoadsFromStack := by
  refine fun d s hd hpc => ⟨fun hne hsp => ?_, fun h7 hsp => ?_⟩
  · have hkeep : (s.regs.set d.toNat (s.mem.read (stackTop s)) hd)[7] = s.regs[7] := Vector.getElem_set_ne hd _ hne
    refine exec_of_completed ⟨by omega, hd, _, incSp_of_le (hkeep ▸ hsp), ?_⟩
    rw [State.setRegs_regs, hkeep]
    rfl
  · obtain rfl : d = 7#8 := BitVec.eq_of_toNat_eq h7
    have hpopped : (s.regs.set 7 (s.mem.read (stackTop s)))[7] = s.mem.read (stackTop s) := Vector.getElem_set_self _
    have h2 : incSp (s.setRegs (s.regs.set 7 (s.mem.read (stackTop s)))) = .ok _ := incSp_of_le (hpopped.symm ▸ hsp)
    refine exec_of_completed ⟨by omega, hd, _, h2, ?_⟩
    rw [State.setRegs_regs, hpopped]
    refine State.ext_fields rfl ?_ rfl rfl rfl rfl rfl
    exact (Vector.set_set _ hd).symm

/-- Settles O43: the target register is read after SP has moved. -/
theorem callPushesReturnAddress : Obligations.CallPushesReturnAddress := by
  intro r s hr hpc hsp
  have h1 := decSp_of_pos hsp
  refine exec_of_completed ⟨by omega, _, h1, hr, ?_⟩
  rw [decSp_stackTop h1, setSp_regs, getElem_set_sp]
  rfl

/-- Settles O44: RET completes where SP has room for the increment. -/
theorem retPopsPc : Obligations.RetPopsPc := by
  intro s hsp
  rw [← lowByte_succ]
  exact exec_of_completed ⟨ne_ff_of_le hsp, rfl⟩

/-- Settles O45: JMP completes with its operand byte in memory and a register that exists. -/
theorem jmpSetsPc : Obligations.JmpSetsPc := fun _ _ hr hpc => exec_of_completed ⟨by omega, hr, rfl⟩

/-- Settles O46: the two ways in which a JEQ completes. -/
theorem jeqBranchesOnEqual : Obligations.JeqBranchesOnEqual := fun _ _ =>
  ⟨fun hr hE hpc => exec_of_completed (.inl ⟨hE, by omega, hr, rfl⟩), fun hE => exec_of_completed (.inr ⟨hE, rfl⟩)⟩

/-- Settles O47: the two ways in which a JNE completes. -/
theorem jneBranchesOnNotEqual : Obligations.JneBranchesOnNotEqual := fun _ _ =>
  ⟨fun hr hE hpc => exec_of_completed (.inl ⟨hE, by omega, hr, rfl⟩), fun hE => exec_of_completed (.inr ⟨hE, rfl⟩)⟩

/-- Settles O56: the two orders complete under the same conditions, with sums and products that commute. -/
theorem addAndMulCommuteInValue : Obligations.AddAndMulCommuteInValue := by
  intro a b s t u ha hb hrun ht
  refine ⟨fun hab hba => ?_, fun hab hba => ?_⟩
  · obtain ⟨hpc, _, _, rfl⟩ := completed_of_running hab ht
    cases hba.symm.trans (exec_of_completed ⟨hpc, hb, ha, rfl⟩)
    simp [Nat.add_comm]
  · obtain ⟨hpc, _, _, rfl⟩ := completed_of_running hab ht
    cases hba.symm.trans (exec_of_completed ⟨hpc, hb, ha, rfl⟩)
    simp [Nat.mul_comm]

end Sys2Proof.Machine

/-! The proofs of the statements about where a single instruction raises: in each, the earlier entries of `firstError`
are none and the next one is the error. -/

namespace Sys2Proof.Machine

variable {s : State} {r : Byte}

/-! ## The entries of a list of errors -/

theorem indexError_of_ge (h : 8 ≤ r.toNat) : indexError r = some (.registerIndexOutOfRange r.toNat) := if_pos h

theorem pushError_of_zero (h : sp s = 0x00#8) : pushError s = some (.memoryOutOfBounds (-1)) := if_pos h

theorem popError_of_ff {v : Byte} (h : v = 0xFF#8) : popError v = some (.memoryOutOfBounds 256) := if_pos h

/-! ## The statements -/

/-- Settles O48: with the operand bytes in memory and SP in range, the index is the first error of the list. -/
theorem registerIndexAboveSevenFaults : Obligations.RegisterIndexAboveSevenFaults := by
  intro r x s hr fault
  have hbad := indexError_of_ge hr
  refine ⟨fun hpc => ?_, fun hpc => ?_⟩
  · have hone : operandError 1 s = none := operandError_one_eq_none.2 (by omega)
    have htwo : operandError 2 s = none := operandError_two_eq_none.2 (by omega)
    have hret : returnError s = none := returnError_eq_none.2 (by omega)
    have hldi : (operandError 2 s <|> indexError r) = some (.registerIndexOutOfRange r.toNat) := by rw [htwo, hbad]; rfl
    have hleft : (operandError 2 s <|> indexError r <|> indexError x) = some (.registerIndexOutOfRange r.toNat) := by
      rw [htwo, hbad]; rfl
    refine ⟨exec_of_firstError hldi, exec_of_firstError hleft, exec_of_firstError hleft, exec_of_firstError hleft,
      fun hx => ?_, fun hsp => ?_⟩
    · have hright : (operandError 2 s <|> indexError x <|> indexError r) = some (.registerIndexOutOfRange r.toNat) := by
        rw [htwo, indexError_eq_none.2 hx, hbad]; rfl
      exact ⟨exec_of_firstError hright, exec_of_firstError hright, exec_of_firstError hright⟩
    · exact exec_of_firstError (by rw [firstError, hone, pushError_eq_none.2 hsp, hret, hbad]; rfl)
  · have hone : operandError 1 s = none := operandError_one_eq_none.2 (by omega)
    have hindex : (operandError 1 s <|> indexError r) = some (.registerIndexOutOfRange r.toNat) := by
      rw [hone, hbad]; rfl
    refine ⟨exec_of_firstError hindex, ?_, exec_of_firstError hindex, fun hsp => ?_,
      fun hE => exec_of_firstError ((if_pos hE).trans hindex),
      fun hE => exec_of_firstError ((if_neg (Bool.eq_false_iff.1 hE)).trans hindex)⟩
    · exact exec_of_firstError (by rw [firstError, hone, hbad]; rfl)
    · exact exec_of_firstError (by rw [firstError, hone, pushError_eq_none.2 hsp, hbad]; rfl)

/-- Settles O49: the operand reads are the first entry of each list. -/
theorem operandReadAboveMemoryFaults : Obligations.OperandReadAboveMemoryFaults := by
  intro r x s fault
  refine ⟨fun htop => ?_, fun htop => ?_⟩
  · have hread : ∀ o, (operandError 2 s <|> o) = some (.memoryOutOfBounds 256) := fun o => by
      rw [operandError_two_of_ge (by omega) (by omega)]; rfl
    exact ⟨exec_of_firstError (hread _), exec_of_firstError (hread _), exec_of_firstError (hread _),
      exec_of_firstError (hread _)⟩
  · have hread : ∀ o, (operandError 1 s <|> o) = some (.memoryOutOfBounds 256) := fun o => by
      rw [operandError_one_of_ge (by omega) (by omega)]; rfl
    exact ⟨exec_of_firstError (hread _), exec_of_firstError (hread _), exec_of_firstError (hread _),
      exec_of_firstError (hread _), exec_of_firstError (hread _),
      fun hE => exec_of_firstError ((if_pos hE).trans (hread _)),
      fun hE => exec_of_firstError ((if_neg (Bool.eq_false_iff.1 hE)).trans (hread _))⟩

/-- Settles O50: the stack's own errors come after the operand read, and POP R7 is tested on the popped byte. -/
theorem stackNeverWraps : Obligations.StackNeverWraps := by
  intro r s fault
  have hone : s.pc ≤ 254 → operandError 1 s = none := fun hpc => operandError_one_eq_none.2 (by omega)
  refine ⟨fun hsp hpc => ?_, fun hsp => ?_, fun hsp hpc hr => ?_, fun hread hpc hr => ?_, fun hsp hpc => ?_⟩
  · have hpush : ∀ o, (operandError 1 s <|> pushError s <|> o) = some (.memoryOutOfBounds (-1)) := fun o => by
      rw [hone hpc, pushError_of_zero hsp]; rfl
    exact ⟨exec_of_firstError (hpush _), exec_of_firstError (hpush _)⟩
  · exact exec_of_firstError (i := .ret) (popError_of_ff hsp)
  · have hidx : indexError r = none := indexError_eq_none.2 (by omega)
    have hsame : popSp r s = sp s := if_neg fun h => by simp [h] at hr
    exact exec_of_firstError (by rw [firstError, hone hpc, hidx, popError_of_ff (hsame.trans hsp)]; rfl)
  · have hidx : indexError r = none := indexError_eq_none.2 (by omega)
    have hpopped : popSp r s = s.mem.read (stackTop s) := if_pos (BitVec.eq_of_toNat_eq hr)
    exact exec_of_firstError (by rw [firstError, hone hpc, hidx, popError_of_ff (hpopped.trans hread)]; rfl)
  · have hret : returnError s = some (.memoryOutOfBounds 256) := by simp [returnError, hpc]
    exact exec_of_firstError (by rw [firstError, hone hpc.le, pushError_eq_none.2 hsp, hret]; rfl)

end Sys2Proof.Machine

/-! The proofs of the statements about two instructions in a row, from 95_test_vectors.md: the first stores nothing, so
the second's bytes still stand where it leaves PC. -/

namespace Sys2Proof.Machine

variable {i j : Instr} {s t u : State} {r a b v w : Byte}

theorem runFor_two (h₁ : step s = .next t) (h₂ : step t = .next u) : runFor 2 s = u := by
  simp only [runFor, h₁, h₂]

/-- Two instructions in a row, of which the first falls through to the second and stores nothing. -/
theorem runFor_two_of_completed (hrun : s.run = .running) (hbytes : HoldsAt s s.pc (encode i ++ encode j))
    (hi : Completed i (s.setIr (opcodeOf i)) t) (hpc : t.pc = s.pc + (encode i).length) (hmem : t.mem = s.mem)
    (hgo : t.run = .running) (hj : Completed j (t.setIr (opcodeOf j)) u) : runFor 2 s = u := by
  obtain ⟨hfirst, hlen, hsecond⟩ := hbytes.of_append
  have hthere : HoldsAt t t.pc (encode j) := by
    rw [hpc]
    exact ⟨hlen, hmem ▸ hsecond⟩
  exact runFor_two ((step_of_holdsAt hrun hfirst).trans (exec_of_completed hi))
    ((step_of_holdsAt hgo hthere).trans (exec_of_completed hj))

/-- The state after a step of CMP over two registers that hold v and w; `completed_cmp` ties it to the instruction. -/
def afterCmp (v w : Byte) (s : State) : State := ((s.setIr opCMP).setFl (compareFlags v w)).setPc (s.pc + 3)

theorem completed_cmp (hpc : s.pc + 2 < 256) (ha : a.toNat < 8) (hb : b.toNat < 8) :
    Completed (.cmp a b) (s.setIr opCMP) (afterCmp s.regs[a.toNat] s.regs[b.toNat] s) := ⟨hpc, ha, hb, rfl⟩

/-- E after CMP says whether the two registers are equal. -/
theorem flagE_afterCmp (x : Byte) : flagE ((afterCmp v w s).setIr x).fl = true ↔ v = w := flagE_compareFlags

theorem flagE_afterCmp_eq_false (x : Byte) : flagE ((afterCmp v w s).setIr x).fl = false ↔ v ≠ w :=
  Bool.eq_false_iff.trans flagE_compareFlags.not

/-- CMP and an instruction after it, which begins where CMP leaves PC. -/
theorem runFor_two_of_cmp (hrun : s.run = .running) (ha : a.toNat < 8) (hb : b.toNat < 8)
    (hbytes : HoldsAt s s.pc (encode (.cmp a b) ++ encode j))
    (hj : Completed j ((afterCmp s.regs[a.toNat] s.regs[b.toNat] s).setIr (opcodeOf j)) u) : runFor 2 s = u :=
  runFor_two_of_completed hrun hbytes (completed_cmp hbytes.of_append.1.1 ha hb) rfl rfl hrun hj

/-! ## The statements -/

/-- Settles O54: PRN reads the register that LDI wrote. -/
theorem ldiThenPrnOutputsValue : Obligations.LdiThenPrnOutputsValue := by
  intro r v s hr hrun hbytes
  have hfit : s.pc + 5 ≤ 256 := hbytes.1
  have hldi : Completed (.ldi r v) (s.setIr opLDI)
      (((s.setIr opLDI).setRegs (s.regs.set r.toNat v hr)).setPc (s.pc + 3)) :=
    ⟨show s.pc + 2 < 256 by omega, hr, rfl⟩
  have htwo := runFor_two_of_completed hrun hbytes hldi rfl rfl hrun
    ⟨show s.pc + 3 + 1 < 256 by omega, hr, rfl⟩
  rw [htwo]
  exact ⟨congrArg (s.output ++ [·]) (Vector.getElem_set_self hr), hrun⟩

/-- Settles O55: E after the CMP is the equality of the two registers, and the branch goes by it. -/
theorem cmpThenBranch : Obligations.CmpThenBranch := by
  intro a b r s ha hb hr hrun
  refine ⟨fun hbytes => ?_, fun hbytes => ?_⟩
  · by_cases heq : s.regs[a.toNat] = s.regs[b.toNat]
    · rw [runFor_two_of_cmp hrun ha hb hbytes (.inl ⟨(flagE_afterCmp _).2 heq, hbytes.1, hr, rfl⟩), if_pos heq]
      exact ⟨hrun, rfl⟩
    · rw [runFor_two_of_cmp hrun ha hb hbytes (.inr ⟨(flagE_afterCmp_eq_false _).2 heq, rfl⟩), if_neg heq]
      exact ⟨hrun, rfl⟩
  · by_cases heq : s.regs[a.toNat] = s.regs[b.toNat]
    · rw [runFor_two_of_cmp hrun ha hb hbytes (.inr ⟨(flagE_afterCmp _).2 heq, rfl⟩), if_pos heq]
      exact ⟨hrun, rfl⟩
    · rw [runFor_two_of_cmp hrun ha hb hbytes (.inl ⟨(flagE_afterCmp_eq_false _).2 heq, hbytes.1, hr, rfl⟩),
        if_neg heq]
      exact ⟨hrun, rfl⟩

end Sys2Proof.Machine
